-- ==== Sys2Proof/Word.lean ====
section
/-!
DEFINITION. The word types of the machine (00_scope.md rules R4, R5; 20_memory.md rule R57).
-/

namespace Sys2Proof

/-- A word: "a 16-bit unsigned integer; the fundamental unit of memory, registers, and
instructions" (R4 `WORD_BITS`, R14). It is also an address (R4 `ADDR_BITS`). Its `+` wraps
modulo 65536, as R6 asks. -/
abbrev Word := BitVec 16

/-- A byte: what the host gives and takes (R161), the trap vector (R90), a packed character (R57). -/
abbrev Byte := BitVec 8

end Sys2Proof
end

