-- ==== Sys2Proof/Syntax.lean ====
section
/-!
DEFINITION. The instructions: one constructor per row of spec/opcode_table.json, with the operand
fields of 30_encoding.md rules R83 to R91 as they stand in the word (sign extension happens where an
operand is used, R92).
-/

namespace Sys2Proof

/-- A 3-bit register selector: `n` names register `Rn` (R20, R92). -/
abbrev RegIdx := BitVec 3

/-- The sixteen opcode values by name (R82); the JSR opcode carries two mnemonics (R81). -/
inductive Opcode where
  | br | add | ld | st | jsr | and | ldr | str | rti | not | ldi | sti | jmp | res | lea | trap
deriving DecidableEq, Repr

/-- All of them, in R82's order. -/
def Opcode.all : List Opcode :=
  [.br, .add, .ld, .st, .jsr, .and, .ldr, .str, .rti, .not, .ldi, .sti, .jmp, .res, .lea, .trap]

/-- The six trap routines (R151). -/
inductive TrapRoutine where
  | getc | out | puts | inp | putsp | halt
deriving DecidableEq, Repr

/-- All of them, in R151's order. -/
def TrapRoutine.all : List TrapRoutine := [.getc, .out, .puts, .inp, .putsp, .halt]

/-- The instructions, one constructor per row of spec/opcode_table.json, named as R99 names them. The
rows marked `alias_of` there (RET and the six trap routines) have constructors too (log 23): the word
of such a row decodes to it, and a `jmp` or `trap` that such a row covers is not well-formed. -/
inductive Instr where
  /-- ADD, register mode (R110). -/
  | addr (dr sr1 sr2 : RegIdx)
  /-- ADD, immediate mode (R111). -/
  | addi (dr sr1 : RegIdx) (imm5 : BitVec 5)
  /-- AND, register mode (R112). -/
  | andr (dr sr1 sr2 : RegIdx)
  /-- AND, immediate mode (R113). -/
  | andi (dr sr1 : RegIdx) (imm5 : BitVec 5)
  /-- NOT (R114). -/
  | not (dr sr : RegIdx)
  /-- BR (R120); `nzp` is `ir[11:9]`. -/
  | br (nzp : BitVec 3) (pcOffset9 : BitVec 9)
  /-- JMP (R121), `baseR` not R7. -/
  | jmp (baseR : RegIdx)
  /-- RET, which is JMP with baseR = R7 (R122). -/
  | ret
  /-- JSR (R123). -/
  | jsr (pcOffset11 : BitVec 11)
  /-- JSRR (R124). -/
  | jsrr (baseR : RegIdx)
  /-- LD (R130). -/
  | ld (dr : RegIdx) (pcOffset9 : BitVec 9)
  /-- LDI (R131). -/
  | ldi (dr : RegIdx) (pcOffset9 : BitVec 9)
  /-- LDR (R132). -/
  | ldr (dr baseR : RegIdx) (offset6 : BitVec 6)
  /-- LEA (R133). -/
  | lea (dr : RegIdx) (pcOffset9 : BitVec 9)
  /-- ST (R134). -/
  | st (sr : RegIdx) (pcOffset9 : BitVec 9)
  /-- STI (R135). -/
  | sti (sr : RegIdx) (pcOffset9 : BitVec 9)
  /-- STR (R136). -/
  | str (sr baseR : RegIdx) (offset6 : BitVec 6)
  /-- TRAP (R150) with a vector none of the six routine rows names (R158). -/
  | trap (vector : Byte)
  /-- TRAP x20, GETC (R152). -/
  | getc
  /-- TRAP x21, OUT (R153). -/
  | out
  /-- TRAP x22, PUTS (R154). -/
  | puts
  /-- TRAP x23, IN (R155). -/
  | inp
  /-- TRAP x24, PUTSP (R156). -/
  | putsp
  /-- TRAP x25, HALT (R157). -/
  | halt
  /-- RTI (R159); `low` is `ir[11:0]`, ignored but kept for the fault record (R99, R183). -/
  | rti (low : BitVec 12)
  /-- The reserved opcode (R160); `low` is `ir[11:0]`, kept for the fault record. -/
  | res (low : BitVec 12)
deriving DecidableEq, Repr

end Sys2Proof
end

