-- ==== Sys2Proof/Decode.lean ====
section
/-!
DEFINITION. The encoding tables (30_encoding.md rules R82 to R94, 43_trap_and_system.md rule R151), the
total decoder of rule R99, and after it the encoder written from the same tables.
-/

namespace Sys2Proof

/-- `w[lo+len-1 : lo]`, the field of `len` bits whose lowest bit is bit `lo` (R5). -/
def field (w : Word) (lo len : Nat) : BitVec len := w.extractLsb' lo len

/-- PRESUMED (log 1). `OPCODE_MAP` of R4 with R82's values: "from general knowledge, not in source". -/
def Config.opcodeMap : Opcode → BitVec 4
  | .br => 0x0#4
  | .add => 0x1#4
  | .ld => 0x2#4
  | .st => 0x3#4
  | .jsr => 0x4#4
  | .and => 0x5#4
  | .ldr => 0x6#4
  | .str => 0x7#4
  | .rti => 0x8#4
  | .not => 0x9#4
  | .ldi => 0xA#4
  | .sti => 0xB#4
  | .jmp => 0xC#4
  | .res => 0xD#4
  | .lea => 0xE#4
  | .trap => 0xF#4

/-- PRESUMED (log 2). `TRAP_VECTORS` of R4 with R151's values: "from general knowledge, not in
source". -/
def Config.trapVector : TrapRoutine → Byte
  | .getc => 0x20#8
  | .out => 0x21#8
  | .puts => 0x22#8
  | .inp => 0x23#8
  | .putsp => 0x24#8
  | .halt => 0x25#8

/-- The opcode a 4-bit value selects. Every value has one (R82), so the default is never taken. -/
def opcodeOf (b : BitVec 4) : Opcode :=
  (Opcode.all.find? (fun o => Config.opcodeMap o = b)).getD .trap

/-- The routine a vector selects, `none` for an unrecognised one (R151). -/
def routineOf (v : Byte) : Option TrapRoutine :=
  TrapRoutine.all.find? (fun r => Config.trapVector r = v)

/-- The instruction a routine is the row of (R98, R151). -/
def routineInstr : TrapRoutine → Instr
  | .getc => .getc
  | .out => .out
  | .puts => .puts
  | .inp => .inp
  | .putsp => .putsp
  | .halt => .halt

/-- The TRAP opcode's rows: the routine's own row where the vector names one, else the plain row. -/
def decodeTrap (v : Byte) : Instr :=
  match routineOf v with
  | some r => routineInstr r
  | none => .trap v

/-- The JMP opcode's rows: RET when baseR is R7 (R86, R98). -/
def decodeJmp (baseR : RegIdx) : Instr := if baseR = 7#3 then .ret else .jmp baseR

/-- The decoder of R99: total, no word is refused (R12). Bits no rule extracts are ignored (R94).
PRESUMED (log 4): bit 5 = 1 selects the immediate form, bit 11 = 1 selects JSR (R93). -/
def decode (ir : Word) : Instr :=
  match opcodeOf (field ir 12 4) with
  | .br => .br (field ir 9 3) (field ir 0 9)
  | .add =>
    if field ir 5 1 = 0#1 then .addr (field ir 9 3) (field ir 6 3) (field ir 0 3)
    else .addi (field ir 9 3) (field ir 6 3) (field ir 0 5)
  | .ld => .ld (field ir 9 3) (field ir 0 9)
  | .st => .st (field ir 9 3) (field ir 0 9)
  | .jsr => if field ir 11 1 = 1#1 then .jsr (field ir 0 11) else .jsrr (field ir 6 3)
  | .and =>
    if field ir 5 1 = 0#1 then .andr (field ir 9 3) (field ir 6 3) (field ir 0 3)
    else .andi (field ir 9 3) (field ir 6 3) (field ir 0 5)
  | .ldr => .ldr (field ir 9 3) (field ir 6 3) (field ir 0 6)
  | .str => .str (field ir 9 3) (field ir 6 3) (field ir 0 6)
  | .rti => .rti (field ir 0 12)
  | .not => .not (field ir 9 3) (field ir 6 3)
  | .ldi => .ldi (field ir 9 3) (field ir 0 9)
  | .sti => .sti (field ir 9 3) (field ir 0 9)
  | .jmp => decodeJmp (field ir 6 3)
  | .res => .res (field ir 0 12)
  | .lea => .lea (field ir 9 3) (field ir 0 9)
  | .trap => decodeTrap (field ir 0 8)

/-- The opcode of each instruction (R82). -/
def Instr.opcode : Instr → Opcode
  | .addr _ _ _ | .addi _ _ _ => .add
  | .andr _ _ _ | .andi _ _ _ => .and
  | .not _ _ => .not
  | .br _ _ => .br
  | .jmp _ | .ret => .jmp
  | .jsr _ | .jsrr _ => .jsr
  | .ld _ _ => .ld
  | .ldi _ _ => .ldi
  | .ldr _ _ _ => .ldr
  | .lea _ _ => .lea
  | .st _ _ => .st
  | .sti _ _ => .sti
  | .str _ _ _ => .str
  | .trap _ | .getc | .out | .puts | .inp | .putsp | .halt => .trap
  | .rti _ => .rti
  | .res _ => .res

/-- Bits 11:0 of the instruction's word, by the format tables of R83 to R91. Ignored bits take the
canonical values of R94: 0, and 1 in NOT's bits 5:0 (log 5). -/
def Instr.operandBits : Instr → BitVec 12
  | .addr dr sr1 sr2 => dr ++ sr1 ++ 0#1 ++ 0#2 ++ sr2
  | .addi dr sr1 imm5 => dr ++ sr1 ++ 1#1 ++ imm5
  | .andr dr sr1 sr2 => dr ++ sr1 ++ 0#1 ++ 0#2 ++ sr2
  | .andi dr sr1 imm5 => dr ++ sr1 ++ 1#1 ++ imm5
  | .not dr sr => dr ++ sr ++ 0x3F#6
  | .br nzp off => nzp ++ off
  | .jmp baseR => 0#3 ++ baseR ++ 0#6
  | .ret => 0#3 ++ 7#3 ++ 0#6
  | .jsr off => 1#1 ++ off
  | .jsrr baseR => 0#1 ++ 0#2 ++ baseR ++ 0#6
  | .ld dr off => dr ++ off
  | .ldi dr off => dr ++ off
  | .ldr dr baseR off => dr ++ baseR ++ off
  | .lea dr off => dr ++ off
  | .st sr off => sr ++ off
  | .sti sr off => sr ++ off
  | .str sr baseR off => sr ++ baseR ++ off
  | .trap v => 0#4 ++ v
  | .getc => 0#4 ++ Config.trapVector .getc
  | .out => 0#4 ++ Config.trapVector .out
  | .puts => 0#4 ++ Config.trapVector .puts
  | .inp => 0#4 ++ Config.trapVector .inp
  | .putsp => 0#4 ++ Config.trapVector .putsp
  | .halt => 0#4 ++ Config.trapVector .halt
  | .rti low => low
  | .res low => low

/-- The word of an instruction: opcode in bits 15:12, operand fields below (R81). -/
def encode (i : Instr) : Word := Config.opcodeMap i.opcode ++ i.operandBits

/-- The instruction the decoder reads from bits `w` of a table row of `nbits` bits. Every instruction
is one 16-bit word (R96): bits above `nbits` are 0, and a row wider than one word is no instruction. -/
def decodeTableWord (nbits w : Nat) : Option Instr :=
  if nbits ≤ 16 then some (decode (BitVec.ofNat 16 (w % 2 ^ nbits))) else none

end Sys2Proof
end

