-- ==== Sys2Proof/Config.lean ====
section
/-!
DEFINITION. The parameters of 00_scope.md rule R4 that the host hands over at reset (60_exceptions.md
rule R196), and the free values of the host's side (20_memory.md rule R53).

The three maps of rule R4 that the source does not give, `OPCODE_MAP`, `TRAP_VECTORS` and `COND_BITS`,
are the named tables `Config.opcodeMap`, `Config.trapVector` (both in Sys2Proof/Decode.lean) and
`Machine.condBits` (in Sys2Proof/Machine/Flags.lean). They stand there and not here because only
those files can be mended later.
-/

namespace Sys2Proof

/-- `UNKNOWN_TRAP_POLICY` of R4: what a TRAP with an unrecognised vector does (R158). -/
inductive Config.TrapPolicy where
  /-- The instruction's only effects are the PC increment and the write of R7 (the default). -/
  | noop
  /-- The fatal error `UnknownTrap` (R181). -/
  | fatal
deriving DecidableEq, Repr

/-- The parameters of R4 that no rule fixes. The reset transaction of R196 gives them to the block;
no step changes them. They stand in `State` so that a claim over every state is a claim over every
value of them (log 20). -/
structure Config.Params where
  /-- `PC_START`: value of PC after reset. -/
  pcStart : Word
  /-- `UNKNOWN_TRAP_POLICY`. -/
  unknownTrap : Config.TrapPolicy
  /-- `IN_PROMPT`: the bytes IN writes before it reads (R155). -/
  inPrompt : List Byte
  /-- `HALT_NOTICE`: the bytes HALT writes (R157). -/
  haltNotice : List Byte
deriving DecidableEq, Repr

/-- FREE VALUE (log 13). The prompt's bytes are not in the spec (N14, D13): no body, so no proof can
see them. -/
opaque Config.inPrompt : List Byte

/-- FREE VALUE (log 13). The halt notice's bytes are not in the spec (N14, D13). -/
opaque Config.haltNotice : List Byte

/-- FREE VALUE (log 9). The `n`-th byte the host supplies after the bytes listed in
`State.host.input`: which bytes arrive is the host's choice (R33). -/
opaque Config.hostByte : Nat → Byte

/-- FREE VALUE (log 9). The host's `n`-th answer to `poll_key_available()` after the answers listed
in `State.host.answers`: the block puts no law on it (R53). -/
opaque Config.keyAnswer : Nat → Bool

/-- R4's defaults: `PC_START` 0x3000, `UNKNOWN_TRAP_POLICY` noop; the two texts stay free. -/
def Config.Params.standard : Config.Params where
  pcStart := 0x3000#16
  unknownTrap := .noop
  inPrompt := Config.inPrompt
  haltNotice := Config.haltNotice

end Sys2Proof
end

