-- ==== Sys2Proof/Machine/State.lean ====
section
/-!
DEFINITION. The state of the machine (10_state.md rules R20 to R36), the reasons a step can stop, and
the state after reset (rule R35, 70_reset_and_hazards.md rule R210).
-/

namespace Sys2Proof.Machine

/-- The condition register: "exactly one of {POS, ZRO, NEG}" (R24), so a three-valued enumeration, as
R24 allows; its bitmask is `condBits` (R25). -/
inductive Cond where
  | pos | zro | neg
deriving DecidableEq, Repr

/-- The fault status (R29): set once by R180 or R181, never cleared by a step. -/
inductive FaultStatus where
  /-- No fatal error so far. -/
  | none
  /-- `BadOpcode(ir, at)`: the word and the address it was fetched from (R180). -/
  | badOpcode (ir address : Word)
  /-- `UnknownTrap(vector, at)`: the vector and the address of the TRAP (R181). -/
  | unknownTrap (vector : Byte) (address : Word)
deriving DecidableEq, Repr

/-- One cell of memory: an address and the word it holds. The word is the only addressable unit and
there are no bytes inside the block (R50, R57), so a cell holds a word (log 21). -/
abbrev Cell := Nat × Word

/-- Memory: 65536 words (R30, R50), as the list of the cells that differ from `Memory.unlisted`,
addresses strictly rising (log 21). -/
abbrev Memory := List Cell

/-- What an unlisted address reads as: 0x0000, the reset contents of every cell (R35). -/
def Memory.unlisted : Word := 0#16

/-- The host's side of the keyboard (R33, R53): one input stream, and the answers to the polls. It is
the environment, not the block's own state; the model holds it so that a step is a function (log 9). -/
structure HostSide where
  /-- The bytes of the input stream not taken yet, first one next (R33). -/
  input : List Byte
  /-- No byte ever follows `input`; if false, the bytes after it are the free `Config.hostByte`. -/
  ended : Bool
  /-- How many bytes past `input` have been taken: the argument of the next `Config.hostByte`. -/
  byteDraws : Nat
  /-- The host's next answers to `poll_key_available()` (R53). -/
  answers : List Bool
  /-- How many answers past `answers` have been given: the argument of the next `Config.keyAnswer`. -/
  answerDraws : Nat
deriving DecidableEq, Repr

/-- A host of which nothing is known: no byte and no answer is listed, so each one is a free value
(log 24). -/
def HostSide.unknown : HostSide where
  input := []
  ended := false
  byteDraws := 0
  answers := []
  answerDraws := 0

/-- The whole state (the record at the top of 10_state.md), with the host's side and the parameters. -/
structure State where
  /-- General registers R0 to R7 (R20). -/
  x : Vector Word 8
  /-- Program counter (R22). -/
  pc : Word
  /-- Condition register (R24). -/
  cond : Cond
  /-- Running flag (R28). -/
  running : Bool
  /-- Fault status (R29). -/
  fault : FaultStatus
  /-- Memory, KBSR at 0xFE00 and KBDR at 0xFE02 included (R30, R31). -/
  mem : Memory
  /-- Console output so far, oldest byte first (R32). -/
  out : List Byte
  /-- The host's side of the keyboard (R33); the model's own field. -/
  host : HostSide
  /-- The parameters given at reset (R4, R196); the model's own field. -/
  params : Config.Params
deriving DecidableEq, Repr

/-- Why a step does not happen. The hardware's own fatal errors are no member of this type: they are
states, recorded in `State.fault` (R29, log 14). Each member is safe: the model stops where the spec
says that no step happens. -/
inductive Fault where
  /-- Raised by `step` alone, when `running` is false: before the run starts and after HALT no step is
  enabled (R11, R216). Safe: nothing follows on the hardware either (R218, log 18). -/
  | notRunning
  /-- Raised by `step` alone, when `fault` is recorded: no step is enabled (R29, R216). Safe: there is
  no resumption (R184). -/
  | faultRecorded
  /-- Raised by GETC and IN when the host's input has ended: the step never happens and the machine is
  stuck (R152, R155, R197, log 12). Safe: no later state is claimed. -/
  | blockedOnInput
  /-- Raised by PUTS and PUTSP when no word of memory is zero: the routine never ends (R154, R156, R197,
  log 15). Safe: no later state is claimed. -/
  | stringNeverEnds
deriving DecidableEq, Repr

/-- What the model gives no meaning. -/
inductive Refusal where
  /-- Raised by `exec` for an instruction not modelled yet. Safe. No arm of `exec` raises it. -/
  | notModelled (mnemonic : String)
deriving DecidableEq, Repr

/-- The reset transaction (R196, R210): every field at R35's value, `PC_START` and the other parameters
as the host gives them, the input stream as the host supplies it (it is not reset by the block). -/
def State.resetWith (params : Config.Params) (host : HostSide) : State where
  x := Vector.replicate 8 0#16
  pc := params.pcStart
  cond := .zro
  running := false
  fault := .none
  mem := []
  out := []
  host := host
  params := params

/-- The machine right after reset, with R4's defaults and a host of which nothing is known. -/
def State.reset : State := State.resetWith Config.Params.standard HostSide.unknown

end Sys2Proof.Machine
end

