-- ==== Sys2Proof/Machine/Ops.lean ====
section
/-!
DEFINITION. The named operations over memory, registers, the host's side and the fault status, which
every meaning is written with: the pseudocode primitives of 00_scope.md rule R9, the fetch of
30_encoding.md rule R80, and taking a fatal error (60_exceptions.md rules R180, R181, R184).

There is no return from exception beside it: a fault has no handler and no resumption (R184), RTI is
itself a fatal error (R191), and a trap routine returns by ending (R190).
-/

namespace Sys2Proof.Machine

/-! ## Memory -/

/-- `MEM_WORDS`: the number of cells (R4, R50). -/
def memWords : Nat := 65536

/-- `Mem[a]`: the stored word, no side effect (R50). -/
def Memory.read : Memory → Word → Word
  | [], _ => Memory.unlisted
  | (k, w) :: rest, a => if k = a.toNat then w else Memory.read rest a

/-- `v` at `a`, in its place in the order of addresses. -/
def Memory.insert : Memory → Word → Word → Memory
  | [], a, v => [(a.toNat, v)]
  | (k, w) :: rest, a, v =>
    if k < a.toNat then (k, w) :: Memory.insert rest a v
    else if k = a.toNat then (k, v) :: rest
    else (a.toNat, v) :: (k, w) :: rest

/-- No cell at `a`, which then reads as an unlisted address. -/
def Memory.erase (m : Memory) (a : Word) : Memory := m.filter (fun c => c.1 ≠ a.toNat)

/-- `Mem[a] <- v` on the list: a word equal to what an unlisted address reads as is not listed. -/
def Memory.write (m : Memory) (a v : Word) : Memory :=
  if v = Memory.unlisted then m.erase a else m.insert a v

/-- The canonical form from address `lo` on: addresses strictly rising, inside the address space, no
cell that reads as an unlisted one. -/
def Memory.wfFrom : Nat → Memory → Bool
  | _, [] => true
  | lo, (k, w) :: rest =>
    decide (lo ≤ k) && decide (k < memWords) && decide (w ≠ Memory.unlisted) && Memory.wfFrom (k + 1) rest

/-- The canonical form of a memory (log 21). -/
def Memory.wf (m : Memory) : Bool := Memory.wfFrom 0 m

/-- `Mem[a]` of a state (R50). -/
def State.word (s : State) (a : Word) : Word := s.mem.read a

/-- `MemWrite(a, v)`: "unconditional stores with no validation", the keyboard addresses included (R54);
also the plain `Mem[a] <- v`. -/
def memWrite (a v : Word) (s : State) : State := { s with mem := s.mem.write a v }

/-! ## Registers -/

/-- `x[r]` (R20). -/
def State.reg (s : State) (r : RegIdx) : Word := s.x[r.toNat]'r.isLt

/-- `x[r] <- v`: all 16 bits, nothing else; no register is hard-wired (R20). -/
def State.setReg (s : State) (r : RegIdx) (v : Word) : State := { s with x := s.x.set r.toNat v r.isLt }

/-- The link register R7 (R21). -/
def linkReg : RegIdx := 7#3

/-- R0, the trap routines' argument and result (R21). -/
def argReg : RegIdx := 0#3

/-- `pc <- t` (R22). -/
def State.setPc (s : State) (t : Word) : State := { s with pc := t }

/-- The link write `x[7] <- pc` of JSR, JSRR and TRAP (R21); no flag changes. -/
def link (s : State) : State := s.setReg linkReg s.pc

/-! ## Bytes and the host -/

/-- `zext_16(b)` (R8). -/
def zext (b : Byte) : Word := b.setWidth 16

/-- `w[7:0]`. -/
def lowByte (w : Word) : Byte := w.extractLsb' 0 8

/-- `w[15:8]`. -/
def highByte (w : Word) : Byte := w.extractLsb' 8 8

/-- `out ++ bytes` (R32). -/
def emit (bytes : List Byte) (s : State) : State := { s with out := s.out ++ bytes }

/-- The next byte of the host's input stream and the stream after it; `none` when it has ended (R33). -/
def takeByte (h : HostSide) : Option (Byte × HostSide) :=
  match h.input with
  | b :: rest => some (b, { h with input := rest })
  | [] => if h.ended then none else some (Config.hostByte h.byteDraws, { h with byteDraws := h.byteDraws + 1 })

/-- The host's answer to `poll_key_available()`, on which the block puts no law (R53). -/
def takeAnswer (h : HostSide) : Bool × HostSide :=
  match h.answers with
  | b :: rest => (b, { h with answers := rest })
  | [] => (Config.keyAnswer h.answerDraws, { h with answerDraws := h.answerDraws + 1 })

/-- `HostPollKey()`: `none`, or the next byte of the input stream, which it removes (R53). -/
def pollKey (h : HostSide) : Option Byte × HostSide :=
  match (takeAnswer h).1 with
  | false => (none, (takeAnswer h).2)
  | true =>
    match takeByte (takeAnswer h).2 with
    | some (k, h') => (some k, h')
    | none => (none, (takeAnswer h).2)

/-! ## The memory read operation -/

/-- `KBSR_ADDR` (R4). -/
def kbsrAddr : Word := 0xFE00#16

/-- `KBDR_ADDR` (R4). -/
def kbdrAddr : Word := 0xFE02#16

/-- What a poll that finds a key puts in KBSR: bit 15 set, bits 14:0 clear (R52, log 7). -/
def kbsrReady : Word := 0x8000#16

/-- `KbsrPoll()` (R52). -/
def kbsrPoll (s : State) : State :=
  match pollKey s.host with
  | (some k, h) => memWrite kbdrAddr (zext k) (memWrite kbsrAddr kbsrReady { s with host := h })
  | (none, h) => memWrite kbsrAddr 0#16 { s with host := h }

/-- The state after `MemRead(a)`: only a read of 0xFE00 has a side effect (R51, R59). -/
def afterRead (a : Word) (s : State) : State := if a = kbsrAddr then kbsrPoll s else s

/-- `MemRead(a)`: the word read, after the poll where there is one, and the state (R51). -/
def memRead (a : Word) (s : State) : Word × State := ((afterRead a s).word a, afterRead a s)

/-! ## Fetch -/

/-- The fetch part of a step: `ir <- MemRead(pc)`, then `pc <- pc + 1` (R80). -/
def fetch (s : State) : Word × State :=
  ((memRead s.pc s).1, (memRead s.pc s).2.setPc (s.pc + 1#16))

/-! ## Taking a fatal error -/

/-- The address of the instruction being executed: the incremented `pc` minus one (R180, R184). -/
def State.instrAddr (s : State) : Word := s.pc - 1#16

/-- A fatal error: the fault is recorded and nothing else changes; `running` keeps its value (R184). -/
def raise (f : FaultStatus) (s : State) : State := { s with fault := f }

/-- `raise BadOpcode(ir)` (R180). -/
def raiseBadOpcode (ir : Word) (s : State) : State := raise (.badOpcode ir s.instrAddr) s

/-- `raise UnknownTrap(v)` (R181). -/
def raiseUnknownTrap (v : Byte) (s : State) : State := raise (.unknownTrap v s.instrAddr) s

end Sys2Proof.Machine
end

