-- ==== Sys2Proof/Machine/Flags.lean ====
section
/-!
DEFINITION. The condition register: its bitmask, the flag update and the branch test (10_state.md
rules R24 to R27, 41_control.md rule R120). There is no other flag.
-/

namespace Sys2Proof.Machine

/-- PRESUMED (log 3). `COND_BITS` of R4 with R25's values: "from general knowledge, not in source". -/
def condBits : Cond → BitVec 3
  | .pos => 0b001#3
  | .zro => 0b010#3
  | .neg => 0b100#3

/-- The flag `setcc(v)` sets (R26). -/
def condOf (v : Word) : Cond := if v = 0#16 then .zro else if v.msb then .neg else .pos

/-- `setcc(v)` (R26). -/
def setcc (v : Word) (s : State) : State := { s with cond := condOf v }

/-- What a flag-setting instruction does with its result: `x[dr] <- v; setcc(v)` (R26, R27). -/
def writeResult (dr : RegIdx) (v : Word) (s : State) : State := setcc v (s.setReg dr v)

/-- BR's test `(nzp & cond) != 0` (R120). -/
def condMet (nzp : BitVec 3) (c : Cond) : Bool := nzp &&& condBits c ≠ 0#3

end Sys2Proof.Machine
end

