-- ==== Sys2Proof/Machine/Operands.lean ====
section
/-!
DEFINITION. The operand forms: sign-extended immediates (00_scope.md rule R7, 30_encoding.md rule R92)
and the four ways an operand is reached (42_load_store.md rule R137). `pc` is the incremented PC.
-/

namespace Sys2Proof.Machine

/-- `sext_N(v)` (R7). -/
def sext {n : Nat} (v : BitVec n) : Word := v.signExtend 16

/-- PC-relative, 9 bits: `pc + sext_9(off)` (R92, R137). -/
def pcRel9 (off : BitVec 9) (s : State) : Word := s.pc + sext off

/-- PC-relative, 11 bits: `pc + sext_11(off)` (R92, R123). -/
def pcRel11 (off : BitVec 11) (s : State) : Word := s.pc + sext off

/-- Base plus offset: `x[baseR] + sext_6(off)` (R92, R137). -/
def basePlus (baseR : RegIdx) (off : BitVec 6) (s : State) : Word := s.reg baseR + sext off

/-- Indirect: the pointer, a full 16-bit address, read with `MemRead`, and the state after that read
(R59, R131, R135, R137). -/
def indirect (off : BitVec 9) (s : State) : Word × State := memRead (pcRel9 off s) s

end Sys2Proof.Machine
end

