-- ==== Sys2Proof/Machine/Control.lean ====
section
/-!
DEFINITION. BR, JMP, RET, JSR and JSRR (41_control.md rules R120 to R125): every target is a legal word
address, no flag is written, a transfer takes effect at once.
-/

namespace Sys2Proof.Machine

/-- BR (R120). -/
def execBr (nzp : BitVec 3) (pcOffset9 : BitVec 9) (s : State) : Host.Outcome State Fault Refusal :=
  .next (if condMet nzp s.cond then s.setPc (pcRel9 pcOffset9 s) else s)

/-- JMP (R121). -/
def execJmp (baseR : RegIdx) (s : State) : Host.Outcome State Fault Refusal :=
  .next (s.setPc (s.reg baseR))

/-- RET: JMP with baseR = R7 (R122). -/
def execRet (s : State) : Host.Outcome State Fault Refusal :=
  .next (s.setPc (s.reg linkReg))

/-- JSR: the link write first, then the target from the same incremented PC (R123). -/
def execJsr (pcOffset11 : BitVec 11) (s : State) : Host.Outcome State Fault Refusal :=
  .next ((link s).setPc (pcRel11 pcOffset11 (link s)))

/-- JSRR: the link write first, then the base register is read, so `JSRR R7` falls through (R124). -/
def execJsrr (baseR : RegIdx) (s : State) : Host.Outcome State Fault Refusal :=
  .next ((link s).setPc ((link s).reg baseR))

end Sys2Proof.Machine
end

