-- ==== Sys2Proof/Machine/LoadStore.lean ====
section
/-!
DEFINITION. LD, LDI, LDR, LEA, ST, STI and STR (42_load_store.md rules R130 to R137). Loads and pointer
reads go through `MemRead`, stores through `MemWrite` (20_memory.md rule R56, log 10).
-/

namespace Sys2Proof.Machine

/-- What LD, LDI and LDR do with their effective address: one `MemRead`, the word to `dr`, setcc. -/
def loadFrom (dr : RegIdx) (ea : Word) (s : State) : State :=
  writeResult dr (memRead ea s).1 (memRead ea s).2

/-- LD (R130). -/
def execLd (dr : RegIdx) (pcOffset9 : BitVec 9) (s : State) : Host.Outcome State Fault Refusal :=
  .next (loadFrom dr (pcRel9 pcOffset9 s) s)

/-- LDI: the pointer read, then the data read (R131). -/
def execLdi (dr : RegIdx) (pcOffset9 : BitVec 9) (s : State) : Host.Outcome State Fault Refusal :=
  .next (loadFrom dr (indirect pcOffset9 s).1 (indirect pcOffset9 s).2)

/-- LDR (R132). -/
def execLdr (dr baseR : RegIdx) (offset6 : BitVec 6) (s : State) : Host.Outcome State Fault Refusal :=
  .next (loadFrom dr (basePlus baseR offset6 s) s)

/-- LEA: the address itself, no memory access; it sets flags (R133). -/
def execLea (dr : RegIdx) (pcOffset9 : BitVec 9) (s : State) : Host.Outcome State Fault Refusal :=
  .next (writeResult dr (pcRel9 pcOffset9 s) s)

/-- ST (R134). -/
def execSt (sr : RegIdx) (pcOffset9 : BitVec 9) (s : State) : Host.Outcome State Fault Refusal :=
  .next (memWrite (pcRel9 pcOffset9 s) (s.reg sr) s)

/-- STI: the pointer read, then the store (R135). -/
def execSti (sr : RegIdx) (pcOffset9 : BitVec 9) (s : State) : Host.Outcome State Fault Refusal :=
  .next (memWrite (indirect pcOffset9 s).1 (s.reg sr) (indirect pcOffset9 s).2)

/-- STR (R136). -/
def execStr (sr baseR : RegIdx) (offset6 : BitVec 6) (s : State) : Host.Outcome State Fault Refusal :=
  .next (memWrite (basePlus baseR offset6 s) (s.reg sr) s)

end Sys2Proof.Machine
end

