-- ==== Sys2Proof/Machine/Operate.lean ====
section
/-!
DEFINITION. ADD, AND and NOT (40_operate.md rules R110 to R115): both sources are read before the
destination is written, sums wrap, nothing traps.
-/

namespace Sys2Proof.Machine

/-- ADD, register mode (R110). -/
def execAddr (dr sr1 sr2 : RegIdx) (s : State) : Host.Outcome State Fault Refusal :=
  .next (writeResult dr (s.reg sr1 + s.reg sr2) s)

/-- ADD, immediate mode (R111). -/
def execAddi (dr sr1 : RegIdx) (imm5 : BitVec 5) (s : State) : Host.Outcome State Fault Refusal :=
  .next (writeResult dr (s.reg sr1 + sext imm5) s)

/-- AND, register mode (R112). -/
def execAndr (dr sr1 sr2 : RegIdx) (s : State) : Host.Outcome State Fault Refusal :=
  .next (writeResult dr (s.reg sr1 &&& s.reg sr2) s)

/-- AND, immediate mode (R113). -/
def execAndi (dr sr1 : RegIdx) (imm5 : BitVec 5) (s : State) : Host.Outcome State Fault Refusal :=
  .next (writeResult dr (s.reg sr1 &&& sext imm5) s)

/-- NOT (R114). -/
def execNot (dr sr : RegIdx) (s : State) : Host.Outcome State Fault Refusal :=
  .next (writeResult dr (~~~(s.reg sr)) s)

end Sys2Proof.Machine
end

