-- ==== Sys2Proof/Machine/Trap.lean ====
section
/-!
DEFINITION. TRAP, the six routines, RTI and the reserved opcode (43_trap_and_system.md rules R150 to
R161). The routines are part of the block and run inside the step of the TRAP (60_exceptions.md rules
R188 to R190); `pc` is not changed by any of them.
-/

namespace Sys2Proof.Machine

/-! ## The routines, after the link write -/

/-- GETC's body: the next byte to R0, zero-extended, setcc; no echo (R152). -/
def routineGetc (s : State) : Host.Outcome State Fault Refusal :=
  match takeByte s.host with
  | some (c, h) => .next (writeResult argReg (zext c) { s with host := h })
  | none => .fault .blockedOnInput

/-- OUT's body: the low byte of R0 (R153, log 11). -/
def routineOut (s : State) : Host.Outcome State Fault Refusal :=
  .next (emit [lowByte (s.reg argReg)] s)

/-- IN's body: prompt, read, echo, R0, setcc (R155, log 13). -/
def routineIn (s : State) : Host.Outcome State Fault Refusal :=
  match takeByte s.host with
  | some (c, h) =>
    .next (writeResult argReg (zext c) (emit [c] { emit s.params.inPrompt s with host := h }))
  | none => .fault .blockedOnInput

/-- PUTS writes one byte for a word: bits 7:0 (R154, log 11). -/
def putsChars (w : Word) : List Byte := [lowByte w]

/-- PUTSP writes the low byte, then the high byte unless it is zero (R156, log 11). -/
def putspChars (w : Word) : List Byte :=
  if highByte w = 0#8 then [lowByte w] else [lowByte w, highByte w]

/-- The bytes of the string at `a`: `chars` of each word up to the first zero word, by plain reads
(R56). `n` is how many more words to look at; `none` when none of them is zero. -/
def stringBytes (chars : Word → List Byte) (m : Memory) : Nat → Word → Option (List Byte)
  | 0, _ => none
  | n + 1, a =>
    if m.read a = 0#16 then some []
    else (stringBytes chars m n (a + 1#16)).map (fun bs => chars (m.read a) ++ bs)

/-- The loop of PUTS and PUTSP over the string at R0. The pointer wraps (R154), so 65536 words are all
of memory: with no zero word among them the loop never ends (R154, R197, log 15). -/
def writeString (chars : Word → List Byte) (s : State) : Host.Outcome State Fault Refusal :=
  match stringBytes chars s.mem memWords (s.reg argReg) with
  | some bs => .next (emit bs s)
  | none => .fault .stringNeverEnds

/-- PUTS' body (R154). -/
def routinePuts (s : State) : Host.Outcome State Fault Refusal := writeString putsChars s

/-- PUTSP's body (R156). -/
def routinePutsp (s : State) : Host.Outcome State Fault Refusal := writeString putspChars s

/-- HALT's body: the notice, then `running <- false` (R157, log 13). -/
def routineHalt (s : State) : Host.Outcome State Fault Refusal :=
  .next { emit s.params.haltNotice s with running := false }

/-- The dispatcher's table (R150, R151). -/
def runRoutine (r : TrapRoutine) (s : State) : Host.Outcome State Fault Refusal :=
  match r with
  | .getc => routineGetc s
  | .out => routineOut s
  | .puts => routinePuts s
  | .inp => routineIn s
  | .putsp => routinePutsp s
  | .halt => routineHalt s

/-- An unrecognised vector: nothing, or the fatal error, by policy (R158). -/
def unknownVector (v : Byte) (s : State) : Host.Outcome State Fault Refusal :=
  match s.params.unknownTrap with
  | .noop => .next s
  | .fatal => .next (raiseUnknownTrap v s)

/-! ## The instructions -/

/-- TRAP: the link write always, before the vector is examined; then the dispatch (R150). -/
def execTrap (vector : Byte) (s : State) : Host.Outcome State Fault Refusal :=
  match routineOf vector with
  | some r => runRoutine r (link s)
  | none => unknownVector vector (link s)

/-- GETC (R152). -/
def execGetc (s : State) : Host.Outcome State Fault Refusal := routineGetc (link s)

/-- OUT (R153). -/
def execOut (s : State) : Host.Outcome State Fault Refusal := routineOut (link s)

/-- PUTS (R154). -/
def execPuts (s : State) : Host.Outcome State Fault Refusal := routinePuts (link s)

/-- IN (R155). -/
def execInp (s : State) : Host.Outcome State Fault Refusal := routineIn (link s)

/-- PUTSP (R156). -/
def execPutsp (s : State) : Host.Outcome State Fault Refusal := routinePutsp (link s)

/-- HALT (R157). -/
def execHalt (s : State) : Host.Outcome State Fault Refusal := routineHalt (link s)

/-- RTI: always the fatal error `BadOpcode`, with the whole word recorded (R159, R99). -/
def execRti (low : BitVec 12) (s : State) : Host.Outcome State Fault Refusal :=
  .next (raiseBadOpcode (encode (.rti low)) s)

/-- The reserved opcode: exactly as RTI (R160). -/
def execRes (low : BitVec 12) (s : State) : Host.Outcome State Fault Refusal :=
  .next (raiseBadOpcode (encode (.res low)) s)

end Sys2Proof.Machine
end

