-- ==== Sys2Proof/Machine/Dispatch.lean ====
section
/-!
DEFINITION. The execute part of a step: one meaning per instruction (30_encoding.md rule R82).
-/

namespace Sys2Proof.Machine

def exec (i : Instr) (s : State) : Host.Outcome State Fault Refusal :=
  match i with
  | .addr dr sr1 sr2 => Sys2Proof.Machine.execAddr dr sr1 sr2 s
  | .addi dr sr1 imm5 => Sys2Proof.Machine.execAddi dr sr1 imm5 s
  | .andr dr sr1 sr2 => Sys2Proof.Machine.execAndr dr sr1 sr2 s
  | .andi dr sr1 imm5 => Sys2Proof.Machine.execAndi dr sr1 imm5 s
  | .not dr sr => Sys2Proof.Machine.execNot dr sr s
  | .br nzp pcOffset9 => Sys2Proof.Machine.execBr nzp pcOffset9 s
  | .jmp baseR => Sys2Proof.Machine.execJmp baseR s
  | .ret => Sys2Proof.Machine.execRet s
  | .jsr pcOffset11 => Sys2Proof.Machine.execJsr pcOffset11 s
  | .jsrr baseR => Sys2Proof.Machine.execJsrr baseR s
  | .ld dr pcOffset9 => Sys2Proof.Machine.execLd dr pcOffset9 s
  | .ldi dr pcOffset9 => Sys2Proof.Machine.execLdi dr pcOffset9 s
  | .ldr dr baseR offset6 => Sys2Proof.Machine.execLdr dr baseR offset6 s
  | .lea dr pcOffset9 => Sys2Proof.Machine.execLea dr pcOffset9 s
  | .st sr pcOffset9 => Sys2Proof.Machine.execSt sr pcOffset9 s
  | .sti sr pcOffset9 => Sys2Proof.Machine.execSti sr pcOffset9 s
  | .str sr baseR offset6 => Sys2Proof.Machine.execStr sr baseR offset6 s
  | .trap vector => Sys2Proof.Machine.execTrap vector s
  | .getc => Sys2Proof.Machine.execGetc s
  | .out => Sys2Proof.Machine.execOut s
  | .puts => Sys2Proof.Machine.execPuts s
  | .inp => Sys2Proof.Machine.execInp s
  | .putsp => Sys2Proof.Machine.execPutsp s
  | .halt => Sys2Proof.Machine.execHalt s
  | .rti low => Sys2Proof.Machine.execRti low s
  | .res low => Sys2Proof.Machine.execRes low s

end Sys2Proof.Machine
end

