-- ==== Sys2Proof/Machine/Step.lean ====
section
/-!
DEFINITION. One step of the machine (00_scope.md rule R11, 30_encoding.md rule R80) under the run loop's
condition (70_reset_and_hazards.md rule R216), and how the host places one instruction for it.
-/

namespace Sys2Proof.Machine

/-- One pass of the run loop's body, when its condition `running = true and fault = none` holds: fetch,
increment, decode, execute (R80, R187, R216). Otherwise no step is enabled (R11). -/
def step (s : State) : Host.Outcome State Fault Refusal :=
  match s.running, s.fault with
  | false, _ => .fault .notRunning
  | true, .none => exec (decode (fetch s).1) (fetch s).2
  | true, .badOpcode _ _ => .fault .faultRecorded
  | true, .unknownTrap _ _ => .fault .faultRecorded

/-- The state with an instruction of bits `w` stored at `pc` and the run started, so that the next step
runs it: it stands for the load and run transactions of R196 (log 16). -/
def State.withFetchWord (s : State) (nbits w : Nat) : State :=
  { memWrite s.pc (BitVec.ofNat 16 (w % 2 ^ nbits)) s with running := true, fault := .none }

end Sys2Proof.Machine
end

