-- ==== Sys2Proof/Machine/Launch.lean ====
section
/-!
DEFINITION. The host's transactions before the first step (60_exceptions.md rule R196): load image and
run, after `State.resetWith` (70_reset_and_hazards.md rules R211 to R215). They are not steps; a program
comes to run from reset by them (log 16).
-/

namespace Sys2Proof.Machine

/-- Why an image is rejected: no launch state and no step follow (R182, R214, log 17). -/
inductive ImageError where
  /-- Fewer than two bytes: the origin cannot be read. -/
  | noOrigin
  /-- An odd number of bytes after the origin: the body cannot be fully read. -/
  | truncatedBody
  /-- Origin plus number of body words is above 65536. -/
  | overflow
deriving DecidableEq, Repr

/-- What an image says: where its body goes, and the body (R212). -/
structure Image where
  origin : Word
  body : List Word
deriving DecidableEq, Repr

/-- A word of the byte stream: high byte first (R212). -/
def wordOfBytes (hi lo : Byte) : Word := hi ++ lo

/-- The words of a byte stream; `none` when a byte is left over (R212, R214). -/
def wordsOfBytes : List Byte → Option (List Word)
  | [] => some []
  | [_] => none
  | hi :: lo :: rest => (wordsOfBytes rest).map (fun ws => wordOfBytes hi lo :: ws)

/-- The image a byte stream holds, or why it is rejected (R212, R214). -/
def parseImage (bytes : List Byte) : Except ImageError Image :=
  match bytes with
  | hi :: lo :: rest =>
    match wordsOfBytes rest with
    | none => .error .truncatedBody
    | some ws =>
      if (wordOfBytes hi lo).toNat + ws.length ≤ memWords then .ok ⟨wordOfBytes hi lo, ws⟩
      else .error .overflow
  | _ => .error .noOrigin

/-- `Mem[a + i] <- w_i`, plain stores (R213). -/
def storeWords : Word → List Word → State → State
  | _, [], s => s
  | a, w :: ws, s => storeWords (a + 1#16) ws (memWrite a w s)

/-- Load image: memory alone changes; in particular `pc` is not set to the origin (R213). -/
def loadImage (bytes : List Byte) (s : State) : Except ImageError State :=
  match parseImage bytes with
  | .ok image => .ok (storeWords image.origin image.body s)
  | .error e => .error e

/-- Run: "set running = true", the only place the flag becomes true (R215). -/
def startRun (s : State) : State := { s with running := true }

/-- The launch state: reset, then load image, then run, in that order (R211). -/
def launch (params : Config.Params) (host : HostSide) (bytes : List Byte) : Except ImageError State :=
  match loadImage bytes (State.resetWith params host) with
  | .ok s => .ok (startRun s)
  | .error e => .error e

end Sys2Proof.Machine
end

