-- ==== Sys2Proof/Safety.lean ====
section
/-!
DEFINITION. What a run is in and what it ends in (70_reset_and_hazards.md rule R216), what a recorded
fault means (60_exceptions.md rule R184), and the invariant of the machine, in the terms claims use.
-/

namespace Sys2Proof.Machine

/-- The status the host may ask for at any time (R196). -/
def State.status (s : State) : Bool × FaultStatus := (s.running, s.fault)

/-- Mid-run: a step is enabled (R11, R216). -/
abbrev State.midRun (s : State) : Prop := s.running = true ∧ s.fault = .none

/-- A halted state, "the only normal end" of a run (R216). The state before the run starts has the
same status (R35); no step is enabled in either. -/
abbrev State.halted (s : State) : Prop := s.running = false ∧ s.fault = .none

/-- A faulted state: the run has failed (R216). -/
abbrev State.faulted (s : State) : Prop := s.fault ≠ .none

/-- The fault a state records is precise (R184): it names the instruction just fetched, which is one
that raises it, `running` is still true, and an unknown trap has written its link register. -/
def State.faultPrecise (s : State) : Bool :=
  match s.fault with
  | .none => true
  | .badOpcode ir address =>
    decide (s.running = true ∧ s.pc = address + 1#16 ∧
      (opcodeOf (field ir 12 4) = .rti ∨ opcodeOf (field ir 12 4) = .res))
  | .unknownTrap vector address =>
    decide (s.running = true ∧ s.pc = address + 1#16 ∧ s.reg linkReg = s.pc ∧ routineOf vector = none ∧
      s.params.unknownTrap = .fatal)

/-- The invariant: memory is in canonical form and a recorded fault is precise. -/
abbrev State.Inv (s : State) : Prop := s.mem.wf = true ∧ s.faultPrecise = true

end Sys2Proof.Machine
end

