-- ==== Sys2Proof/WellFormed.lean ====
section
/-!
DEFINITION. Which terms of `Instr` are the instruction of some word under its own row: a JMP whose base
is R7 is RET's row, and a TRAP whose vector names a routine is that routine's row (30_encoding.md
rule R98). Every other operand field may hold every value (rule R12).
-/

namespace Sys2Proof

/-- JMP with baseR = R7 is the row RET (R122). -/
def jmpWellFormed (baseR : RegIdx) : Bool := baseR ≠ 7#3

/-- A TRAP with one of the six vectors is that routine's row (R151). -/
def trapWellFormed (vector : Byte) : Bool := (routineOf vector).isNone

/-- The two checks above; every other instruction is well-formed whatever its fields hold. -/
def WellFormed : Instr → Bool
  | .jmp baseR => jmpWellFormed baseR
  | .trap vector => trapWellFormed vector
  | .addr _ _ _ | .addi _ _ _ | .andr _ _ _ | .andi _ _ _ | .not _ _ | .br _ _ | .ret | .jsr _ | .jsrr _
  | .ld _ _ | .ldi _ _ | .ldr _ _ _ | .lea _ _ | .st _ _ | .sti _ _ | .str _ _ _
  | .getc | .out | .puts | .inp | .putsp | .halt | .rti _ | .res _ => true

end Sys2Proof
end

