-- ==== Sys2Proof/Certificates/Slice0/Obligations.lean ====
section
/-!
DEFINITION. The statements for the provers, from the numbered rules of spec/. Each docstring names the
rules or sections a statement formalises, and the log entries of the choices it rests on.
-/

open Sys2Proof Sys2Proof.Machine

namespace Sys2Proof.Claims

/-! ## What statements are written with: the spec's own arithmetic, and frames -/

/-- The flag of a word by R26: ZRO if 0, NEG if the high bit is 1, else POS. -/
def flagOf (v : Word) : Cond := if v = 0#16 then .zro else if v.getLsbD 15 = true then .neg else .pos

/-- `sext_N(v)` by R7, as a number. -/
def signExtended (n : Nat) (v : BitVec n) : Nat :=
  if v.getLsbD (n - 1) = true then v.toNat + (65536 - 2 ^ n) else v.toNat

/-- Bits 7:0 of a word, by division. -/
def lowPart (w : Word) : Byte := BitVec.ofNat 8 (w.toNat % 256)

/-- Bits 15:8 of a word, by division. -/
def highPart (w : Word) : Byte := BitVec.ofNat 8 (w.toNat / 256)

/-- Every general register but the listed ones is as before. -/
def SameRegs (written : List RegIdx) (s t : State) : Prop := ∀ r, r ∉ written → t.reg r = s.reg r

/-- Every word of memory reads as before. -/
def SameMemory (s t : State) : Prop := ∀ a, t.word a = s.word a

/-- Every word of memory but the one at `a` reads as before. -/
def SameMemoryBut (a : Word) (s t : State) : Prop := ∀ b, b ≠ a → t.word b = s.word b

/-- The condition register is as before. -/
def SameCond (s t : State) : Prop := t.cond = s.cond

/-- The program counter is as before: during execute it is the incremented PC. -/
def SamePc (s t : State) : Prop := t.pc = s.pc

/-- The console output and the host's side are as before. -/
def SameConsole (s t : State) : Prop := t.out = s.out ∧ t.host = s.host

/-- The running flag, the fault status and the parameters are as before. -/
def SameStatus (s t : State) : Prop := t.running = s.running ∧ t.fault = s.fault ∧ t.params = s.params

/-- What one keyboard poll does to memory and to the host's side (R52): the two keyboard cells, nothing
else of memory. -/
def PollEffect (s t : State) : Prop :=
  (∀ a, a ≠ 0xFE00#16 → a ≠ 0xFE02#16 → t.word a = s.word a) ∧ t.host = (pollKey s.host).2 ∧
    match (pollKey s.host).1 with
    | some k => t.word 0xFE00#16 = 0x8000#16 ∧ t.word 0xFE02#16 = BitVec.ofNat 16 k.toNat
    | none => t.word 0xFE00#16 = 0x0000#16 ∧ t.word 0xFE02#16 = s.word 0xFE02#16

/-- What `MemRead(a)` answering `v` does to memory and to the host's side (R51). -/
def MemReadEffect (a v : Word) (s t : State) : Prop :=
  if a = 0xFE00#16 then PollEffect s t ∧ v = t.word 0xFE00#16
  else SameMemory s t ∧ t.host = s.host ∧ v = s.word a

/-- The host's input stream gives `c` next and is `h'` after it: the first listed byte, or a free one
when none is listed and the input has not ended (R33). -/
def ByteReady (h : HostSide) (c : Byte) (h' : HostSide) : Prop :=
  (∃ rest, h.input = c :: rest ∧ h' = { h with input := rest }) ∨
    (h.input = [] ∧ h.ended = false ∧ c = Config.hostByte h.byteDraws ∧
      h' = { h with byteDraws := h.byteDraws + 1 })

/-- No byte will ever come (D12). -/
def InputEnded (h : HostSide) : Prop := h.input = [] ∧ h.ended = true

/-! ## The instruction a step runs, and what rules say of it by kind -/

/-- The instruction the step at `s` fetches (R80). -/
def fetched (s : State) : Instr := decode (fetch s).1

/-- The destination register whose new value sets the flags (R27); `none`: the flags are not written. -/
def flagSource : Instr → Option RegIdx
  | .addr dr _ _ | .addi dr _ _ | .andr dr _ _ | .andi dr _ _ | .not dr _ => some dr
  | .ld dr _ | .ldi dr _ | .ldr dr _ _ | .lea dr _ => some dr
  | .getc | .inp => some 0#3
  | .br _ _ | .jmp _ | .ret | .jsr _ | .jsrr _ | .st _ _ | .sti _ _ | .str _ _ _ => none
  | .trap _ | .out | .puts | .putsp | .halt | .rti _ | .res _ => none

/-- The instructions that write the link register (R21): JSR, JSRR and every TRAP row. -/
def isLinking : Instr → Bool
  | .jsr _ | .jsrr _ | .trap _ | .getc | .out | .puts | .inp | .putsp | .halt => true
  | .addr _ _ _ | .addi _ _ _ | .andr _ _ _ | .andi _ _ _ | .not _ _ | .br _ _ | .jmp _ | .ret => false
  | .ld _ _ | .ldi _ _ | .ldr _ _ _ | .lea _ _ | .st _ _ | .sti _ _ | .str _ _ _ | .rti _ | .res _ => false

/-- The general registers R36's table lets an instruction write. -/
def writtenRegs (i : Instr) : List RegIdx :=
  (flagSource i).toList ++ (if isLinking i then [7#3] else [])

/-- The rows that write to the console (R32). -/
def isPrinting : Instr → Bool
  | .out | .puts | .inp | .putsp | .halt => true
  | .addr _ _ _ | .addi _ _ _ | .andr _ _ _ | .andi _ _ _ | .not _ _ | .br _ _ | .jmp _ | .ret => false
  | .jsr _ | .jsrr _ | .ld _ _ | .ldi _ _ | .ldr _ _ _ | .lea _ _ | .st _ _ | .sti _ _ => false
  | .str _ _ _ | .trap _ | .getc | .rti _ | .res _ => false

/-- The address a store goes to, computed in the state its meaning runs in (R134 to R136). -/
def storeTarget (i : Instr) (s : State) : Option Word :=
  match i with
  | .st _ off => some (pcRel9 off s)
  | .sti _ off => some (indirect off s).1
  | .str _ baseR off => some (basePlus baseR off s)
  | .addr _ _ _ | .addi _ _ _ | .andr _ _ _ | .andi _ _ _ | .not _ _ | .br _ _ | .jmp _ | .ret => none
  | .jsr _ | .jsrr _ | .ld _ _ | .ldi _ _ | .ldr _ _ _ | .lea _ _ | .trap _ | .getc | .out => none
  | .puts | .inp | .putsp | .halt | .rti _ | .res _ => none

/-- BR's condition, flag by flag (R120): bit 2 of the mask tests NEG, bit 1 ZRO, bit 0 POS. -/
def branchTaken (nzp : BitVec 3) (c : Cond) : Prop :=
  (nzp.getLsbD 2 = true ∧ c = .neg) ∨ (nzp.getLsbD 1 = true ∧ c = .zro) ∨ (nzp.getLsbD 0 = true ∧ c = .pos)

/-- How `pc` advances (R23), for an instruction fetched at `s`; `t` is the state after the step. -/
def PcAdvances (i : Instr) (s t : State) : Prop :=
  match i with
  | .br nzp off =>
    (branchTaken nzp s.cond → t.pc = BitVec.ofNat 16 (s.pc.toNat + 1 + signExtended 9 off)) ∧
      (¬ branchTaken nzp s.cond → t.pc = s.pc + 1#16)
  | .jmp baseR => t.pc = s.reg baseR
  | .ret => t.pc = s.reg 7#3
  | .jsr off => t.pc = BitVec.ofNat 16 (s.pc.toNat + 1 + signExtended 11 off)
  | .jsrr baseR => (baseR ≠ 7#3 → t.pc = s.reg baseR) ∧ (baseR = 7#3 → t.pc = s.pc + 1#16)
  | .addr _ _ _ | .addi _ _ _ | .andr _ _ _ | .andi _ _ _ | .not _ _ | .ld _ _ | .ldi _ _ => t.pc = s.pc + 1#16
  | .ldr _ _ _ | .lea _ _ | .st _ _ | .sti _ _ | .str _ _ _ | .trap _ | .getc | .out => t.pc = s.pc + 1#16
  | .puts | .inp | .putsp | .halt | .rti _ | .res _ => t.pc = s.pc + 1#16

/-- The fault a step records (R180, R181): by the instruction, its word and its address. -/
def faultOf (i : Instr) (ir address : Word) (policy : Config.TrapPolicy) : FaultStatus :=
  match i with
  | .rti _ | .res _ => .badOpcode ir address
  | .trap v => if policy = .fatal then .unknownTrap v address else .none
  | .addr _ _ _ | .addi _ _ _ | .andr _ _ _ | .andi _ _ _ | .not _ _ | .br _ _ | .jmp _ | .ret => .none
  | .jsr _ | .jsrr _ | .ld _ _ | .ldi _ _ | .ldr _ _ _ | .lea _ _ | .st _ _ | .sti _ _ => .none
  | .str _ _ _ | .getc | .out | .puts | .inp | .putsp | .halt => .none

/-! ## The opcode table -/

/-- The bits no rule extracts (R94). RTI's and the reserved opcode's low bits are not listed here: they
do not change what happens, but the fault record keeps them (R99). -/
def ignoredBits : Instr → Word
  | .addr _ _ _ | .andr _ _ _ => 0x0018#16
  | .not _ _ => 0x003F#16
  | .jmp _ | .ret => 0x0E3F#16
  | .jsrr _ => 0x063F#16
  | .trap _ | .getc | .out | .puts | .inp | .putsp | .halt => 0x0F00#16
  | .addi _ _ _ | .andi _ _ _ | .br _ _ | .jsr _ | .ld _ _ | .ldi _ _ | .ldr _ _ _ | .lea _ _ => 0x0000#16
  | .st _ _ | .sti _ _ | .str _ _ _ | .rti _ | .res _ => 0x0000#16

/-- The 19 rows of spec/opcode_table.json without `alias_of`, in its order, as (mask, match). -/
def primaryRows : List (Word × Word) :=
  [(0xF020#16, 0x1000#16), (0xF020#16, 0x1020#16), (0xF020#16, 0x5000#16), (0xF020#16, 0x5020#16),
   (0xF000#16, 0x9000#16), (0xF000#16, 0x0000#16), (0xF000#16, 0xC000#16), (0xF800#16, 0x4800#16),
   (0xF800#16, 0x4000#16), (0xF000#16, 0x2000#16), (0xF000#16, 0xA000#16), (0xF000#16, 0x6000#16),
   (0xF000#16, 0xE000#16), (0xF000#16, 0x3000#16), (0xF000#16, 0xB000#16), (0xF000#16, 0x7000#16),
   (0xF000#16, 0xF000#16), (0xF000#16, 0x8000#16), (0xF000#16, 0xD000#16)]

/-- The 7 rows with `alias_of`, as (mask, match) and the instruction. -/
def aliasRows : List ((Word × Word) × Instr) :=
  [((0xF1C0#16, 0xC1C0#16), .ret), ((0xF0FF#16, 0xF020#16), .getc), ((0xF0FF#16, 0xF021#16), .out),
   ((0xF0FF#16, 0xF022#16), .puts), ((0xF0FF#16, 0xF023#16), .inp), ((0xF0FF#16, 0xF024#16), .putsp),
   ((0xF0FF#16, 0xF025#16), .halt)]

/-- The primary row of an instruction. -/
def primaryRow : Instr → Word × Word
  | .addr _ _ _ => (0xF020#16, 0x1000#16)
  | .addi _ _ _ => (0xF020#16, 0x1020#16)
  | .andr _ _ _ => (0xF020#16, 0x5000#16)
  | .andi _ _ _ => (0xF020#16, 0x5020#16)
  | .not _ _ => (0xF000#16, 0x9000#16)
  | .br _ _ => (0xF000#16, 0x0000#16)
  | .jmp _ | .ret => (0xF000#16, 0xC000#16)
  | .jsr _ => (0xF800#16, 0x4800#16)
  | .jsrr _ => (0xF800#16, 0x4000#16)
  | .ld _ _ => (0xF000#16, 0x2000#16)
  | .ldi _ _ => (0xF000#16, 0xA000#16)
  | .ldr _ _ _ => (0xF000#16, 0x6000#16)
  | .lea _ _ => (0xF000#16, 0xE000#16)
  | .st _ _ => (0xF000#16, 0x3000#16)
  | .sti _ _ => (0xF000#16, 0xB000#16)
  | .str _ _ _ => (0xF000#16, 0x7000#16)
  | .trap _ | .getc | .out | .puts | .inp | .putsp | .halt => (0xF000#16, 0xF000#16)
  | .rti _ => (0xF000#16, 0x8000#16)
  | .res _ => (0xF000#16, 0xD000#16)

/-- The bytes of an image file with origin `o` and body `ws`, high byte first (R212). -/
def imageBytes (o : Word) (ws : List Word) : List Byte := (o :: ws).flatMap (fun w => [highPart w, lowPart w])

end Sys2Proof.Claims

open Sys2Proof.Claims

/-! ## Reset, launch, the step -/

/-- R35, R210: the state after the reset transaction, whatever parameters and host it is given. That
`running`, `fault` and `out` are among them is the spec's own inference and decision (R35's table, D14);
`State.reset` itself is R4's defaults (log 20, log 24). -/
def Obligations.ResetLeavesStatedValues : Prop :=
  (∀ (p : Config.Params) (h : HostSide),
    (∀ r, (State.resetWith p h).reg r = 0x0000#16) ∧ (State.resetWith p h).pc = p.pcStart ∧
      (State.resetWith p h).cond = .zro ∧ (∀ a, (State.resetWith p h).word a = 0x0000#16) ∧
      (State.resetWith p h).running = false ∧ (State.resetWith p h).fault = .none ∧
      (State.resetWith p h).out = []) ∧
    State.reset.pc = 0x3000#16 ∧ State.reset.params.unknownTrap = .noop

/-- The invariant of `StepKeepsInvariant` holds after every reset. -/
def Obligations.InvariantHoldsAfterReset : Prop :=
  (∀ (p : Config.Params) (h : HostSide), (State.resetWith p h).Inv) ∧ State.reset.Inv

/-- R80: a step reads the word at `pc` with `MemRead`, increments `pc`, decodes, and runs that
instruction on that state. -/
def Obligations.StepRunsDecodedInstruction : Prop :=
  ∀ (s : State) (i : Instr), s.midRun → WellFormed i = true → decode (memRead s.pc s).1 = i →
    step s = exec i ((memRead s.pc s).2.setPc (s.pc + 1#16))

/-- R11, R216, R29: no step is enabled unless `running` is true and no fault is recorded. That the model
then answers a stop of its own name is its choice (log 14, log 18). -/
def Obligations.NoStepOutsideARun : Prop :=
  ∀ s : State, (s.running = false → step s = .fault .notRunning) ∧
    (s.running = true → s.fault ≠ .none → step s = .fault .faultRecorded)

/-- R97's example words, one at least of every family. Their numbers rest on log 1 to 4. -/
def Obligations.SpecExampleWordsDecode : Prop :=
  decode 0x1401#16 = .addr 2#3 0#3 1#3 ∧ decode 0x127F#16 = .addi 1#3 1#3 0x1F#5 ∧
    decode 0x5401#16 = .andr 2#3 0#3 1#3 ∧ decode 0x5020#16 = .andi 0#3 0#3 0x00#5 ∧
    decode 0x923F#16 = .not 1#3 0#3 ∧ decode 0x07FD#16 = .br 0b011#3 0x1FD#9 ∧
    decode 0xC080#16 = .jmp 2#3 ∧ decode 0xC1C0#16 = .ret ∧ decode 0x4802#16 = .jsr 2#11 ∧
    decode 0x40C0#16 = .jsrr 3#3 ∧ decode 0xA004#16 = .ldi 0#3 4#9 ∧ decode 0x62BF#16 = .ldr 1#3 2#3 0x3F#6 ∧
    decode 0x7280#16 = .str 1#3 2#3 0#6 ∧ decode 0xF025#16 = .halt ∧ decode 0x8000#16 = .rti 0#12

/-! ## Encoding -/

/-- Decoding the word of a well-formed instruction gives it back, with every operand at every value
(R83 to R91, R99). It rests on the tables of log 1 and log 2. -/
def Obligations.DecodeOfEncodeIsIdentity : Prop :=
  ∀ i : Instr, WellFormed i = true → decode (encode i) = i

/-- R12, R94, R99: every word decodes to a well-formed instruction, and the word of that instruction
agrees with it in every bit that is not ignored. -/
def Obligations.EncodeOfDecodeKeepsUsedBits : Prop :=
  ∀ w : Word, WellFormed (decode w) = true ∧
    encode (decode w) ||| ignoredBits (decode w) = w ||| ignoredBits (decode w)

/-- R94: two words are the same instruction exactly when they agree outside its ignored bits. That those
bits are ignored is the spec's decision D5 (log 5). -/
def Obligations.SameInstructionIffUsedBitsAgree : Prop :=
  ∀ w w' : Word, decode w = decode w' ↔ w ||| ignoredBits (decode w) = w' ||| ignoredBits (decode w)

/-- R82 and the head of 30_encoding.md: every word matches exactly one of the 19 primary rows, the one
of the instruction it decodes to; it matches an alias row exactly when it decodes to that row's
instruction. The numbers rest on log 1, 2 and 4. -/
def Obligations.OpcodeTablePartitionsTheWords : Prop :=
  ∀ w : Word, primaryRows.filter (fun r => w &&& r.1 = r.2) = [primaryRow (decode w)] ∧
    ∀ r ∈ aliasRows, (w &&& r.1.1 = r.1.2 ↔ decode w = r.2)

/-! ## Operands and primitives -/

/-- R7, for the four widths in use. -/
def Obligations.SignExtensionOfEveryField : Prop :=
  (∀ v : BitVec 5, (sext v).toNat = signExtended 5 v) ∧ (∀ v : BitVec 6, (sext v).toNat = signExtended 6 v) ∧
    (∀ v : BitVec 9, (sext v).toNat = signExtended 9 v) ∧ (∀ v : BitVec 11, (sext v).toNat = signExtended 11 v)

/-- R137, R92, R55: every address sum, modulo 65536 (the wrap is D20, log 19). -/
def Obligations.AddressFormsWrap : Prop :=
  ∀ s : State, (∀ off, (pcRel9 off s).toNat = (s.pc.toNat + signExtended 9 off) % 65536) ∧
    (∀ off, (pcRel11 off s).toNat = (s.pc.toNat + signExtended 11 off) % 65536) ∧
    (∀ b off, (basePlus b off s).toNat = ((s.reg b).toNat + signExtended 6 off) % 65536)

/-- R54: a store is a plain store of the whole word at every address, the keyboard's included; whatever
is stored at 0xFE00, the next `MemRead` of 0xFE00 overwrites it, and whatever is stored at 0xFE02, the
next poll that finds a key does. That this read then answers and leaves the same whatever was stored
rests on D7, which rewrites the whole status word (log 7), and on D8, which answers the value just
polled and keeps KBDR when there is no key (log 8). -/
def Obligations.MemWriteIsAPlainStore : Prop :=
  (∀ (s : State) (a v : Word), (memWrite a v s).word a = v ∧ SameMemoryBut a s (memWrite a v s) ∧
    SameRegs [] s (memWrite a v s) ∧ SamePc s (memWrite a v s) ∧ SameCond s (memWrite a v s) ∧
    SameConsole s (memWrite a v s) ∧ SameStatus s (memWrite a v s)) ∧
  (∀ (s : State) (v v' : Word),
    (memRead 0xFE00#16 (memWrite 0xFE00#16 v s)).1 = (memRead 0xFE00#16 (memWrite 0xFE00#16 v' s)).1 ∧
    SameMemory (memRead 0xFE00#16 (memWrite 0xFE00#16 v s)).2 (memRead 0xFE00#16 (memWrite 0xFE00#16 v' s)).2) ∧
  ∀ (s : State) (v : Word) (k : Byte), (pollKey s.host).1 = some k →
    (memRead 0xFE00#16 (memWrite 0xFE02#16 v s)).2.word 0xFE02#16 = BitVec.ofNat 16 k.toNat

/-- R51, R52, R59: only a read of 0xFE00 polls; it answers the value just stored. The whole-word values,
the value read and KBDR's keeping are D7 and D8 (log 7, log 8). -/
def Obligations.MemReadPollsOnlyKeyboardStatus : Prop :=
  ∀ (s : State) (a : Word), MemReadEffect a (memRead a s).1 s (memRead a s).2 ∧
    SameRegs [] s (memRead a s).2 ∧ SamePc s (memRead a s).2 ∧ SameCond s (memRead a s).2 ∧
    (memRead a s).2.out = s.out ∧ SameStatus s (memRead a s).2

/-- R53, R33: a poll that finds a key takes the next byte of the input stream; a poll that finds none
takes nothing; where the host's answer is listed it is the one used (log 9). -/
def Obligations.PollTakesNextByteOrNothing : Prop :=
  ∀ h : HostSide,
    (∀ k, (pollKey h).1 = some k →
      (takeAnswer h).1 = true ∧ ByteReady (takeAnswer h).2 k (pollKey h).2) ∧
    ((pollKey h).1 = none →
      (pollKey h).2 = (takeAnswer h).2 ∧ ((takeAnswer h).1 = false ∨ InputEnded h)) ∧
    (takeAnswer h).2.input = h.input ∧
    ∀ b rest, h.answers = b :: rest → (takeAnswer h).1 = b ∧ (takeAnswer h).2.answers = rest

/-! ## ADD, AND, NOT -/

/-- R110, with its frame. -/
def Obligations.AddRegisterResult : Prop :=
  ∀ (s : State) (dr sr1 sr2 : RegIdx), ∃ t, exec (.addr dr sr1 sr2) s = .next t ∧
    (t.reg dr).toNat = ((s.reg sr1).toNat + (s.reg sr2).toNat) % 65536 ∧ t.cond = flagOf (t.reg dr) ∧
    SameRegs [dr] s t ∧ SamePc s t ∧ SameMemory s t ∧ SameConsole s t ∧ SameStatus s t

/-- R111, with its frame. -/
def Obligations.AddImmediateResult : Prop :=
  ∀ (s : State) (dr sr1 : RegIdx) (imm5 : BitVec 5), ∃ t, exec (.addi dr sr1 imm5) s = .next t ∧
    (t.reg dr).toNat = ((s.reg sr1).toNat + signExtended 5 imm5) % 65536 ∧ t.cond = flagOf (t.reg dr) ∧
    SameRegs [dr] s t ∧ SamePc s t ∧ SameMemory s t ∧ SameConsole s t ∧ SameStatus s t

/-- R112, with its frame. -/
def Obligations.AndRegisterResult : Prop :=
  ∀ (s : State) (dr sr1 sr2 : RegIdx), ∃ t, exec (.andr dr sr1 sr2) s = .next t ∧
    (∀ n < 16, (t.reg dr).getLsbD n = ((s.reg sr1).getLsbD n && (s.reg sr2).getLsbD n)) ∧
    t.cond = flagOf (t.reg dr) ∧
    SameRegs [dr] s t ∧ SamePc s t ∧ SameMemory s t ∧ SameConsole s t ∧ SameStatus s t

/-- R113, with its frame: the immediate is sign-extended before the AND. -/
def Obligations.AndImmediateResult : Prop :=
  ∀ (s : State) (dr sr1 : RegIdx) (imm5 : BitVec 5), ∃ t, exec (.andi dr sr1 imm5) s = .next t ∧
    (∀ n < 16, (t.reg dr).getLsbD n = ((s.reg sr1).getLsbD n && (signExtended 5 imm5).testBit n)) ∧
    t.cond = flagOf (t.reg dr) ∧
    SameRegs [dr] s t ∧ SamePc s t ∧ SameMemory s t ∧ SameConsole s t ∧ SameStatus s t

/-- R114, with its frame. -/
def Obligations.NotResult : Prop :=
  ∀ (s : State) (dr sr : RegIdx), ∃ t, exec (.not dr sr) s = .next t ∧
    (t.reg dr).toNat = 65535 - (s.reg sr).toNat ∧ t.cond = flagOf (t.reg dr) ∧
    SameRegs [dr] s t ∧ SamePc s t ∧ SameMemory s t ∧ SameConsole s t ∧ SameStatus s t

/-! ## BR, JMP, RET, JSR, JSRR -/

/-- R120, with its frame. Which mask bit tests which flag is D3 (log 3). -/
def Obligations.BranchTakenWhenMaskMeetsFlag : Prop :=
  ∀ (s : State) (nzp : BitVec 3) (off : BitVec 9), ∃ t, exec (.br nzp off) s = .next t ∧
    (branchTaken nzp s.cond → t.pc.toNat = (s.pc.toNat + signExtended 9 off) % 65536) ∧
    (¬ branchTaken nzp s.cond → t.pc = s.pc) ∧
    SameRegs [] s t ∧ SameCond s t ∧ SameMemory s t ∧ SameConsole s t ∧ SameStatus s t

/-- R121, with its frame. -/
def Obligations.JumpGoesToBaseRegister : Prop :=
  ∀ (s : State) (baseR : RegIdx), ∃ t, exec (.jmp baseR) s = .next t ∧ t.pc = s.reg baseR ∧
    SameRegs [] s t ∧ SameCond s t ∧ SameMemory s t ∧ SameConsole s t ∧ SameStatus s t

/-- R122, with its frame: RET goes where R7 points, as JMP with baseR = R7 does. -/
def Obligations.ReturnGoesToLinkRegister : Prop :=
  ∀ s : State, exec .ret s = exec (.jmp 7#3) s ∧ ∃ t, exec .ret s = .next t ∧ t.pc = s.reg 7#3 ∧
    SameRegs [] s t ∧ SameCond s t ∧ SameMemory s t ∧ SameConsole s t ∧ SameStatus s t

/-- R123, with its frame. -/
def Obligations.JsrLinksAndBranches : Prop :=
  ∀ (s : State) (off : BitVec 11), ∃ t, exec (.jsr off) s = .next t ∧ t.reg 7#3 = s.pc ∧
    t.pc.toNat = (s.pc.toNat + signExtended 11 off) % 65536 ∧
    SameRegs [7#3] s t ∧ SameCond s t ∧ SameMemory s t ∧ SameConsole s t ∧ SameStatus s t

/-- R124, with its frame: the link is written before the base is read, so `JSRR R7` falls through. -/
def Obligations.JsrrLinksBeforeReadingBase : Prop :=
  ∀ (s : State) (baseR : RegIdx), ∃ t, exec (.jsrr baseR) s = .next t ∧ t.reg 7#3 = s.pc ∧
    (baseR ≠ 7#3 → t.pc = s.reg baseR) ∧ (baseR = 7#3 → t.pc = s.pc) ∧
    SameRegs [7#3] s t ∧ SameCond s t ∧ SameMemory s t ∧ SameConsole s t ∧ SameStatus s t

/-! ## Loads and stores -/

/-- R130, with its frame. That the read is `MemRead` is the spec's inference (R56, log 10). -/
def Obligations.LoadPcRelativeResult : Prop :=
  ∀ (s : State) (dr : RegIdx) (off : BitVec 9), ∃ t, exec (.ld dr off) s = .next t ∧
    MemReadEffect (pcRel9 off s) (t.reg dr) s t ∧ t.cond = flagOf (t.reg dr) ∧
    SameRegs [dr] s t ∧ SamePc s t ∧ t.out = s.out ∧ SameStatus s t

/-- R131, with its frame: two reads, the pointer first. That both are `MemRead` is D10 (log 10). -/
def Obligations.LoadIndirectResult : Prop :=
  ∀ (s : State) (dr : RegIdx) (off : BitVec 9), ∃ t, exec (.ldi dr off) s = .next t ∧
    MemReadEffect (memRead (pcRel9 off s) s).1 (t.reg dr) (memRead (pcRel9 off s) s).2 t ∧
    (pcRel9 off s ≠ 0xFE00#16 → MemReadEffect (s.word (pcRel9 off s)) (t.reg dr) s t) ∧
    t.cond = flagOf (t.reg dr) ∧
    SameRegs [dr] s t ∧ SamePc s t ∧ t.out = s.out ∧ SameStatus s t

/-- R132, with its frame: the base is read before DR is written. `MemRead` is log 10's. -/
def Obligations.LoadBasePlusOffsetResult : Prop :=
  ∀ (s : State) (dr baseR : RegIdx) (off : BitVec 6), ∃ t, exec (.ldr dr baseR off) s = .next t ∧
    MemReadEffect (basePlus baseR off s) (t.reg dr) s t ∧ t.cond = flagOf (t.reg dr) ∧
    SameRegs [dr] s t ∧ SamePc s t ∧ t.out = s.out ∧ SameStatus s t

/-- R133, with its frame: the address itself, no memory access, and the flags are set from it. -/
def Obligations.LeaLoadsTheAddress : Prop :=
  ∀ (s : State) (dr : RegIdx) (off : BitVec 9), ∃ t, exec (.lea dr off) s = .next t ∧
    (t.reg dr).toNat = (s.pc.toNat + signExtended 9 off) % 65536 ∧ t.cond = flagOf (t.reg dr) ∧
    SameRegs [dr] s t ∧ SamePc s t ∧ SameMemory s t ∧ SameConsole s t ∧ SameStatus s t

/-- R134, with its frame. -/
def Obligations.StorePcRelativeResult : Prop :=
  ∀ (s : State) (sr : RegIdx) (off : BitVec 9), ∃ t, exec (.st sr off) s = .next t ∧
    t.word (pcRel9 off s) = s.reg sr ∧ SameMemoryBut (pcRel9 off s) s t ∧
    SameRegs [] s t ∧ SamePc s t ∧ SameCond s t ∧ SameConsole s t ∧ SameStatus s t

/-- R135, with its frame: the pointer read, then the store. That the pointer read is `MemRead` is D10
(log 10). -/
def Obligations.StoreIndirectResult : Prop :=
  ∀ (s : State) (sr : RegIdx) (off : BitVec 9), ∃ t, exec (.sti sr off) s = .next t ∧
    t.word (indirect off s).1 = s.reg sr ∧ SameMemoryBut (indirect off s).1 (indirect off s).2 t ∧
    t.host = (indirect off s).2.host ∧
    (pcRel9 off s ≠ 0xFE00#16 → (indirect off s).1 = s.word (pcRel9 off s) ∧
      SameMemoryBut (s.word (pcRel9 off s)) s t ∧ t.host = s.host) ∧
    SameRegs [] s t ∧ SamePc s t ∧ SameCond s t ∧ t.out = s.out ∧ SameStatus s t

/-- R136, with its frame. -/
def Obligations.StoreBasePlusOffsetResult : Prop :=
  ∀ (s : State) (sr baseR : RegIdx) (off : BitVec 6), ∃ t, exec (.str sr baseR off) s = .next t ∧
    t.word (basePlus baseR off s) = s.reg sr ∧ SameMemoryBut (basePlus baseR off s) s t ∧
    SameRegs [] s t ∧ SamePc s t ∧ SameCond s t ∧ SameConsole s t ∧ SameStatus s t

/-! ## TRAP and its routines, RTI, the reserved opcode -/

/-- R150, R151: TRAP with a routine's vector is that routine's row. The vectors are log 2's. -/
def Obligations.TrapDispatchesOnItsVector : Prop :=
  ∀ s : State, exec (.trap 0x20#8) s = exec .getc s ∧ exec (.trap 0x21#8) s = exec .out s ∧
    exec (.trap 0x22#8) s = exec .puts s ∧ exec (.trap 0x23#8) s = exec .inp s ∧
    exec (.trap 0x24#8) s = exec .putsp s ∧ exec (.trap 0x25#8) s = exec .halt s

/-- R158, R181: a vector outside 0x20 to 0x25 writes R7; under `fatal` it also records the fault. The
two policies and that the fault is recorded in the state are D6 and D14 (log 6, log 14). -/
def Obligations.UnknownTrapFollowsPolicy : Prop :=
  ∀ (s : State) (v : Byte), v.toNat < 0x20 ∨ 0x25 < v.toNat → ∃ t, exec (.trap v) s = .next t ∧
    t.reg 7#3 = s.pc ∧ (s.params.unknownTrap = .noop → t.fault = s.fault) ∧
    (s.params.unknownTrap = .fatal → t.fault = .unknownTrap v (s.pc - 1#16)) ∧
    SameRegs [7#3] s t ∧ SamePc s t ∧ SameCond s t ∧ SameMemory s t ∧ SameConsole s t ∧
    t.running = s.running ∧ t.params = s.params

/-- R152, with its frame: no echo, the byte zero-extended, flags ZRO or POS (D12, log 12). -/
def Obligations.GetcReadsOneByte : Prop :=
  ∀ (s : State) (c : Byte) (h : HostSide), ByteReady s.host c h → ∃ t, exec .getc s = .next t ∧
    (t.reg 0#3).toNat = c.toNat ∧ t.reg 7#3 = s.pc ∧ t.host = h ∧
    (c.toNat = 0 → t.cond = .zro) ∧ (c.toNat ≠ 0 → t.cond = .pos) ∧
    SameRegs [0#3, 7#3] s t ∧ SamePc s t ∧ SameMemory s t ∧ t.out = s.out ∧ SameStatus s t

/-- R153, with its frame: the low byte of R0 (D11, log 11). -/
def Obligations.OutWritesLowByte : Prop :=
  ∀ s : State, ∃ t, exec .out s = .next t ∧ t.out = s.out ++ [lowPart (s.reg 0#3)] ∧ t.reg 7#3 = s.pc ∧
    t.host = s.host ∧ SameRegs [7#3] s t ∧ SamePc s t ∧ SameCond s t ∧ SameMemory s t ∧ SameStatus s t

/-- R154, with its frame: the low byte of each word before the first zero word, read plainly, the pointer
wrapping (D10, D11; log 10, log 11). -/
def Obligations.PutsWritesOneBytePerWord : Prop :=
  ∀ (s : State) (n : Nat), (∀ i < n, s.word (s.reg 0#3 + BitVec.ofNat 16 i) ≠ 0x0000#16) →
    s.word (s.reg 0#3 + BitVec.ofNat 16 n) = 0x0000#16 → ∃ t, exec .puts s = .next t ∧
    t.out = s.out ++ (List.range n).map (fun i => lowPart (s.word (s.reg 0#3 + BitVec.ofNat 16 i))) ∧
    t.reg 7#3 = s.pc ∧ t.host = s.host ∧
    SameRegs [7#3] s t ∧ SamePc s t ∧ SameCond s t ∧ SameMemory s t ∧ SameStatus s t

/-- R155, with its frame: prompt, then the echo (D12, D13; log 12, log 13). -/
def Obligations.InPromptsAndEchoes : Prop :=
  ∀ (s : State) (c : Byte) (h : HostSide), ByteReady s.host c h → ∃ t, exec .inp s = .next t ∧
    t.out = s.out ++ s.params.inPrompt ++ [c] ∧ (t.reg 0#3).toNat = c.toNat ∧ t.reg 7#3 = s.pc ∧
    t.host = h ∧ (c.toNat = 0 → t.cond = .zro) ∧ (c.toNat ≠ 0 → t.cond = .pos) ∧
    SameRegs [0#3, 7#3] s t ∧ SamePc s t ∧ SameMemory s t ∧ SameStatus s t

/-- R156, with its frame: low byte first, then the high byte unless it is zero (D11, log 11). -/
def Obligations.PutspWritesPackedBytes : Prop :=
  ∀ (s : State) (n : Nat), (∀ i < n, s.word (s.reg 0#3 + BitVec.ofNat 16 i) ≠ 0x0000#16) →
    s.word (s.reg 0#3 + BitVec.ofNat 16 n) = 0x0000#16 → ∃ t, exec .putsp s = .next t ∧
    t.out = s.out ++ (List.range n).flatMap (fun i =>
      if (s.word (s.reg 0#3 + BitVec.ofNat 16 i)).toNat / 256 = 0
      then [lowPart (s.word (s.reg 0#3 + BitVec.ofNat 16 i))]
      else [lowPart (s.word (s.reg 0#3 + BitVec.ofNat 16 i)),
        highPart (s.word (s.reg 0#3 + BitVec.ofNat 16 i))]) ∧
    t.reg 7#3 = s.pc ∧ t.host = s.host ∧
    SameRegs [7#3] s t ∧ SamePc s t ∧ SameCond s t ∧ SameMemory s t ∧ SameStatus s t

/-- R157, with its frame; the notice is the parameter `HALT_NOTICE` (D13, log 13). -/
def Obligations.HaltClearsRunning : Prop :=
  ∀ s : State, ∃ t, exec .halt s = .next t ∧ t.running = false ∧ t.out = s.out ++ s.params.haltNotice ∧
    t.reg 7#3 = s.pc ∧ t.host = s.host ∧ t.fault = s.fault ∧ t.params = s.params ∧
    SameRegs [7#3] s t ∧ SamePc s t ∧ SameCond s t ∧ SameMemory s t

/-- R159, R160, R180, R184: RTI and the reserved opcode record `BadOpcode` with the word and its address
and do nothing else. The fault field is D14's (log 14), the opcode numbers log 1's. -/
def Obligations.RtiAndReservedRecordBadOpcode : Prop :=
  ∀ (s : State) (low : BitVec 12), ∃ t u, exec (.rti low) s = .next t ∧ exec (.res low) s = .next u ∧
    t.fault = .badOpcode (BitVec.ofNat 16 (0x8000 + low.toNat)) (s.pc - 1#16) ∧
    u.fault = .badOpcode (BitVec.ofNat 16 (0xD000 + low.toNat)) (s.pc - 1#16) ∧
    (SameRegs [] s t ∧ SamePc s t ∧ SameCond s t ∧ SameMemory s t ∧ SameConsole s t ∧
      t.running = s.running ∧ t.params = s.params) ∧
    SameRegs [] s u ∧ SamePc s u ∧ SameCond s u ∧ SameMemory s u ∧ SameConsole s u ∧
      u.running = s.running ∧ u.params = s.params

/-- R152, R155, R197: GETC and IN wait for a byte. The model's stop where none will ever come is its form
of the stuck machine of D12 (log 12). -/
def Obligations.GetcAndInBlockWhenInputEnded : Prop :=
  ∀ s : State, InputEnded s.host →
    exec .getc s = .fault .blockedOnInput ∧ exec .inp s = .fault .blockedOnInput

/-- R154, R156, R197: a string routine ends if and only if some word of memory is zero. The model's stop
is its form of the divergence of R11 (log 15). -/
def Obligations.StringRoutinesEndIffAZeroWord : Prop :=
  ∀ s : State,
    ((∃ a, s.word a = 0x0000#16) → (∃ t, exec .puts s = .next t) ∧ ∃ t, exec .putsp s = .next t) ∧
    ((∀ a, s.word a ≠ 0x0000#16) →
      exec .puts s = .fault .stringNeverEnds ∧ exec .putsp s = .fault .stringNeverEnds)

/-! ## Statements about every step -/

/-- The headline: the canonical form of memory and the preciseness of a recorded fault (R184) are kept by
every step, from every state that has them. The canonical form is log 21's, the fault record D14's. -/
def Obligations.StepKeepsInvariant : Prop :=
  ∀ s t : State, s.Inv → step s = .next t → t.Inv

/-- R182, R211 to R216: whatever image the host launches, with whatever parameters and input, every state
the run reaches meets the invariant. The canonical form is log 21's, the fault record D14's (log 14), and
`launch` stands for the transactions of D16 (log 16). -/
def Obligations.EveryLaunchedRunKeepsInvariant : Prop :=
  ∀ (p : Config.Params) (h : HostSide) (bytes : List Byte) (s t : State) (k : Nat),
    launch p h bytes = .ok s → Host.Core.run Sys2Proof.core k s = .next t → t.Inv

/-- R185, R197, R12: in mid-run every step answers a next state, but for GETC and IN with no byte ever and
the string routines with no zero word; nothing is refused. That the next state may be one that records a
fault, for RTI, the reserved opcode and an unknown TRAP under `fatal` (which R11 and R185 set apart from
completing), is D14's form of a fatal error (log 14). The stops' names are log 12's and log 15's. -/
def Obligations.EnabledStepCompletesUnlessStuck : Prop :=
  ∀ s : State, s.midRun →
    (∃ t, step s = .next t) ∨
    (step s = .fault .blockedOnInput ∧ (fetched s = .getc ∨ fetched s = .inp) ∧ InputEnded (fetch s).2.host) ∨
    (step s = .fault .stringNeverEnds ∧ (fetched s = .puts ∨ fetched s = .putsp) ∧
      ∀ a, (fetch s).2.word a ≠ 0x0000#16)

/-- R26, R27: after a flag-setting instruction `cond` is the flag of its destination register's new value;
no other instruction writes `cond`. -/
def Obligations.OnlyFlagSettersWriteCond : Prop :=
  ∀ s t : State, step s = .next t →
    (∀ d, flagSource (fetched s) = some d → t.cond = flagOf (t.reg d)) ∧
    (flagSource (fetched s) = none → t.cond = s.cond)

/-- R28, R157: HALT clears the running flag and nothing else does. -/
def Obligations.OnlyHaltClearsRunning : Prop :=
  ∀ s t : State, step s = .next t → (t.running = false ↔ fetched s = .halt)

/-- R180, R181, R185, R187: the fault a step records is the one of its instruction, with the word and the
address it was fetched from; no other instruction records one. The field is D14's (log 14), the policy
D6's (log 6). -/
def Obligations.FaultsComeOnlyFromTheirCauses : Prop :=
  ∀ s t : State, step s = .next t →
    t.fault = faultOf (fetched s) (fetch s).1 s.pc s.params.unknownTrap

/-- R32: the console output only grows, and only OUT, PUTS, IN, PUTSP and HALT write it. -/
def Obligations.ConsoleOutputOnlyGrows : Prop :=
  ∀ s t : State, step s = .next t →
    ∃ bytes, t.out = s.out ++ bytes ∧ (isPrinting (fetched s) = false → bytes = [])

/-- R23: where `pc` goes, for every instruction; every sum wraps (D20, log 19). -/
def Obligations.PcAdvancesByRule23 : Prop :=
  ∀ s t : State, step s = .next t → PcAdvances (fetched s) s t

/-- R36, R52, R54: a step changes no word of memory but the keyboard's two and the one a store goes to. -/
def Obligations.OnlyStoresAndPollsWriteMemory : Prop :=
  ∀ s t : State, step s = .next t → ∀ a, t.word a ≠ s.word a →
    a = 0xFE00#16 ∨ a = 0xFE02#16 ∨ storeTarget (fetched s) (fetch s).2 = some a

/-- R36's table, registers: a step writes no general register but those its instruction's row lists. -/
def Obligations.StepWritesOnlyListedRegisters : Prop :=
  ∀ s t : State, step s = .next t → SameRegs (writtenRegs (fetched s)) s t

/-- R21, R190: after JSR, JSRR and every TRAP, R7 holds the address of the next instruction in memory. -/
def Obligations.LinkRegisterHoldsReturnAddress : Prop :=
  ∀ s t : State, step s = .next t → isLinking (fetched s) = true → t.reg 7#3 = s.pc + 1#16

/-- R33, R53: input bytes leave the one stream from its front, in order, and are not put back; no step
changes the parameters of R4 (log 9, log 20). -/
def Obligations.InputIsTakenInOrder : Prop :=
  ∀ s t : State, step s = .next t →
    (∃ taken, s.host.input = taken ++ t.host.input) ∧ t.host.ended = s.host.ended ∧ t.params = s.params

/-- R186, R62: without a read of 0xFE00 the keyboard does nothing: an instruction that is no load, no
indirect access, no GETC and no IN, fetched elsewhere, leaves the host's side and the two keyboard cells
as they were, but for a store to them. That this holds of PUTS and PUTSP also when their string covers
0xFE00 is R56's plain read, the choice D10 (log 10). -/
def Obligations.KeyboardActsOnlyInsideReads : Prop :=
  ∀ s t : State, step s = .next t → s.pc ≠ 0xFE00#16 →
    (∀ dr off, fetched s ≠ .ld dr off) → (∀ dr off, fetched s ≠ .ldi dr off) →
    (∀ dr b off, fetched s ≠ .ldr dr b off) → (∀ sr off, fetched s ≠ .sti sr off) →
    fetched s ≠ .getc → fetched s ≠ .inp →
    t.host = s.host ∧ ∀ a, storeTarget (fetched s) (fetch s).2 ≠ some a → t.word a = s.word a

/-- R65, R226: a word ST writes at the very next address is the instruction the next step runs. -/
def Obligations.StoredWordIsExecutedNext : Prop :=
  ∀ (s t : State) (sr : RegIdx), fetched s = .st sr 0#9 → s.pc + 1#16 ≠ 0xFE00#16 → step s = .next t →
    step t = exec (decode (s.reg sr)) (t.setPc (s.pc + 2#16))

/-- R224, R52, R180: a fetch at 0xFE00 runs RTI when a key is taken and a no-op when not (D7 and D14; log
7, log 14). -/
def Obligations.FetchAtKeyboardStatus : Prop :=
  ∀ s : State, s.midRun → s.pc = 0xFE00#16 → ∃ t, step s = .next t ∧ PollEffect s t ∧ t.pc = 0xFE01#16 ∧
    ((pollKey s.host).1 = none → t.fault = .none) ∧
    (∀ k, (pollKey s.host).1 = some k → t.fault = .badOpcode 0x8000#16 0xFE00#16) ∧
    SameRegs [] s t ∧ SameCond s t ∧ t.out = s.out ∧ t.running = true ∧ t.params = s.params

/-! ## The image -/

/-- R212, R213: the body of an image appears in memory from its origin on, high byte first in the stream;
every other word, and everything that is not memory, is as before. -/
def Obligations.ImageLoadsVerbatimAtOrigin : Prop :=
  ∀ (s : State) (o : Word) (ws : List Word), o.toNat + ws.length ≤ 65536 →
    ∃ t, loadImage (imageBytes o ws) s = .ok t ∧
      (∀ (n : Nat) (h : n < ws.length), t.word (o + BitVec.ofNat 16 n) = ws[n]) ∧
      (∀ a, (∀ n < ws.length, a ≠ o + BitVec.ofNat 16 n) → t.word a = s.word a) ∧
      SameRegs [] s t ∧ SamePc s t ∧ SameCond s t ∧ SameConsole s t ∧ SameStatus s t

/-- R214: the three errors of an image, and no other. Reject, not truncate, is D17 (log 17). -/
def Obligations.ImageErrorsAreTheThreeOfRule214 : Prop :=
  ∀ (s : State) (bytes : List Byte),
    (bytes.length < 2 → loadImage bytes s = .error .noOrigin) ∧
    (2 ≤ bytes.length → bytes.length % 2 = 1 → loadImage bytes s = .error .truncatedBody) ∧
    (∀ o ws, bytes = imageBytes o ws → 65536 < o.toNat + ws.length → loadImage bytes s = .error .overflow)

/-- R211, R215, R217: the launch state is the reset state with the image's words in memory, running, at
`PC_START` and not at the origin. -/
def Obligations.LaunchStateIsResetPlusImage : Prop :=
  ∀ (p : Config.Params) (h : HostSide) (o : Word) (ws : List Word), o.toNat + ws.length ≤ 65536 →
    ∃ t, launch p h (imageBytes o ws) = .ok t ∧ t.midRun ∧ t.pc = p.pcStart ∧ t.cond = .zro ∧ t.out = [] ∧
      t.host = h ∧ t.params = p ∧ (∀ r, t.reg r = 0x0000#16) ∧
      (∀ (n : Nat) (hn : n < ws.length), t.word (o + BitVec.ofNat 16 n) = ws[n]) ∧
      (∀ a, (∀ n < ws.length, a ≠ o + BitVec.ofNat 16 n) → t.word a = 0x0000#16)
end

