-- ==== Sys2Proof/Laws/Encoding.lean ====
section
/-!
SUPPORT. The small lemmas of the encoding: the opcode map read both ways, and the fields of a word that
is its opcode followed by its operand bits.
-/

namespace Sys2Proof

/-- No two opcodes have the same number. -/
@[simp] theorem opcodeOf_opcodeMap (o : Opcode) : opcodeOf (Config.opcodeMap o) = o := by
  cases o <;> decide

/-- Every number has an opcode. -/
@[simp] theorem opcodeMap_opcodeOf (b : BitVec 4) : Config.opcodeMap (opcodeOf b) = b := by
  revert b; decide

/-- A bit of a word put together from an opcode and operand bits. -/
theorem getLsbD_word (b : BitVec 4) (rest : BitVec 12) (i : Nat) :
    BitVec.getLsbD (w := 16) (b ++ rest) i = if i < 12 then rest.getLsbD i else b.getLsbD (i - 12) :=
  BitVec.getLsbD_append

/-- Bits 15:12 of such a word. -/
@[simp] theorem field_opcode (b : BitVec 4) (rest : BitVec 12) : field (b ++ rest) 12 4 = b := by
  unfold field
  ext i hi
  rw [BitVec.getElem_extractLsb', getLsbD_word, if_neg (by omega), Nat.add_sub_cancel_left,
    BitVec.getLsbD_eq_getElem hi]

/-- A field below bit 12 of such a word is a field of the operand bits. -/
theorem field_operand (b : BitVec 4) (rest : BitVec 12) {lo len : Nat} (h : lo + len ≤ 12) :
    field (b ++ rest) lo len = rest.extractLsb' lo len := by
  unfold field
  ext i hi
  rw [BitVec.getElem_extractLsb', BitVec.getElem_extractLsb', getLsbD_word, if_pos (by omega)]

/-- A field that lies in the upper part of an append. -/
theorem extract_append_upper {n m : Nat} (a : BitVec n) (b : BitVec m) {lo len : Nat} (h : m ≤ lo) :
    (a ++ b).extractLsb' lo len = a.extractLsb' (lo - m) len := by
  ext i hi
  rw [BitVec.getElem_extractLsb', BitVec.getElem_extractLsb', BitVec.getLsbD_append, if_neg (by omega)]
  congr 1
  omega

/-- A field that lies in the lower part of an append. -/
theorem extract_append_lower {n m : Nat} (a : BitVec n) (b : BitVec m) {lo len : Nat} (h : lo + len ≤ m) :
    (a ++ b).extractLsb' lo len = b.extractLsb' lo len := by
  ext i hi
  rw [BitVec.getElem_extractLsb', BitVec.getElem_extractLsb', BitVec.getLsbD_append, if_pos (by omega)]

/-- A word is its opcode field followed by its operand bits. -/
theorem word_eq_opcode_append (w : Word) : w = (field w 12 4 ++ field w 0 12 : BitVec (4 + 12)) := by
  apply BitVec.eq_of_getLsbD_eq
  intro i hi
  refine Eq.trans ?_ (getLsbD_word _ _ i).symm
  unfold field
  by_cases h : i < 12
  · simp [h]
  · have h4 : i - 12 < 4 := by omega
    have h12 : 12 + (i - 12) = i := by omega
    simp [h, h4, h12]

/-- A TRAP that no routine row covers is all the decoder gives a plain TRAP row for. -/
theorem routineOf_of_decode_trap {w : Word} {v : Byte} (h : decode w = .trap v) : routineOf v = none := by
  unfold decode at h
  cases ho : opcodeOf (field w 12 4) <;> rw [ho] at h
  case trap =>
    dsimp only at h
    unfold decodeTrap at h
    split at h
    · rename_i r _
      cases r <;> cases h
    · cases h
      assumption
  case jmp =>
    dsimp only at h
    unfold decodeJmp at h
    split at h <;> cases h
  all_goals first | cases h | (dsimp only at h; split at h <;> cases h)

end Sys2Proof
end

