-- ==== Sys2Proof/Laws/State.lean ====
section
/-!
SUPPORT. Each named update of the state, field by field: what it sets and what it leaves.
-/

namespace Sys2Proof.Machine

theorem State.reg_setReg (s : State) (r q : RegIdx) (v : Word) :
    (s.setReg r v).reg q = if q = r then v else s.reg q := by
  simp [State.reg, State.setReg, Vector.getElem_set, ← BitVec.toNat_inj, eq_comm]

@[simp] theorem State.reg_setReg_self (s : State) (r : RegIdx) (v : Word) : (s.setReg r v).reg r = v := by
  simp [State.reg_setReg]

theorem State.reg_setReg_of_ne (s : State) {r q : RegIdx} (v : Word) (h : q ≠ r) :
    (s.setReg r v).reg q = s.reg q := by
  simp [State.reg_setReg, h]

@[simp] theorem State.pc_setReg (s : State) (r : RegIdx) (v : Word) : (s.setReg r v).pc = s.pc := rfl
@[simp] theorem State.cond_setReg (s : State) (r : RegIdx) (v : Word) : (s.setReg r v).cond = s.cond := rfl
@[simp] theorem State.running_setReg (s : State) (r : RegIdx) (v : Word) : (s.setReg r v).running = s.running := rfl
@[simp] theorem State.fault_setReg (s : State) (r : RegIdx) (v : Word) : (s.setReg r v).fault = s.fault := rfl
@[simp] theorem State.mem_setReg (s : State) (r : RegIdx) (v : Word) : (s.setReg r v).mem = s.mem := rfl
@[simp] theorem State.word_setReg (s : State) (r : RegIdx) (v a : Word) : (s.setReg r v).word a = s.word a := rfl
@[simp] theorem State.out_setReg (s : State) (r : RegIdx) (v : Word) : (s.setReg r v).out = s.out := rfl
@[simp] theorem State.host_setReg (s : State) (r : RegIdx) (v : Word) : (s.setReg r v).host = s.host := rfl
@[simp] theorem State.params_setReg (s : State) (r : RegIdx) (v : Word) : (s.setReg r v).params = s.params := rfl

@[simp] theorem State.reg_setPc (s : State) (t : Word) (r : RegIdx) : (s.setPc t).reg r = s.reg r := rfl
@[simp] theorem State.pc_setPc (s : State) (t : Word) : (s.setPc t).pc = t := rfl
@[simp] theorem State.cond_setPc (s : State) (t : Word) : (s.setPc t).cond = s.cond := rfl
@[simp] theorem State.running_setPc (s : State) (t : Word) : (s.setPc t).running = s.running := rfl
@[simp] theorem State.fault_setPc (s : State) (t : Word) : (s.setPc t).fault = s.fault := rfl
@[simp] theorem State.mem_setPc (s : State) (t : Word) : (s.setPc t).mem = s.mem := rfl
@[simp] theorem State.word_setPc (s : State) (t a : Word) : (s.setPc t).word a = s.word a := rfl
@[simp] theorem State.out_setPc (s : State) (t : Word) : (s.setPc t).out = s.out := rfl
@[simp] theorem State.host_setPc (s : State) (t : Word) : (s.setPc t).host = s.host := rfl
@[simp] theorem State.params_setPc (s : State) (t : Word) : (s.setPc t).params = s.params := rfl

theorem reg_link (s : State) (q : RegIdx) : (link s).reg q = if q = linkReg then s.pc else s.reg q :=
  State.reg_setReg s linkReg q s.pc

@[simp] theorem reg_link_self (s : State) : (link s).reg linkReg = s.pc := by simp [reg_link]
@[simp] theorem reg_link_argReg (s : State) : (link s).reg argReg = s.reg argReg := by
  simp [reg_link, argReg, linkReg]
@[simp] theorem pc_link (s : State) : (link s).pc = s.pc := rfl
@[simp] theorem cond_link (s : State) : (link s).cond = s.cond := rfl
@[simp] theorem running_link (s : State) : (link s).running = s.running := rfl
@[simp] theorem fault_link (s : State) : (link s).fault = s.fault := rfl
@[simp] theorem mem_link (s : State) : (link s).mem = s.mem := rfl
@[simp] theorem word_link (s : State) (a : Word) : (link s).word a = s.word a := rfl
@[simp] theorem out_link (s : State) : (link s).out = s.out := rfl
@[simp] theorem host_link (s : State) : (link s).host = s.host := rfl
@[simp] theorem params_link (s : State) : (link s).params = s.params := rfl

@[simp] theorem reg_setcc (v : Word) (s : State) (r : RegIdx) : (setcc v s).reg r = s.reg r := rfl
@[simp] theorem cond_setcc (v : Word) (s : State) : (setcc v s).cond = condOf v := rfl

theorem reg_writeResult (dr q : RegIdx) (v : Word) (s : State) :
    (writeResult dr v s).reg q = if q = dr then v else s.reg q := State.reg_setReg s dr q v

@[simp] theorem reg_writeResult_self (dr : RegIdx) (v : Word) (s : State) : (writeResult dr v s).reg dr = v := by
  simp [reg_writeResult]
@[simp] theorem cond_writeResult (dr : RegIdx) (v : Word) (s : State) : (writeResult dr v s).cond = condOf v := rfl
@[simp] theorem pc_writeResult (dr : RegIdx) (v : Word) (s : State) : (writeResult dr v s).pc = s.pc := rfl
@[simp] theorem running_writeResult (dr : RegIdx) (v : Word) (s : State) :
    (writeResult dr v s).running = s.running := rfl
@[simp] theorem fault_writeResult (dr : RegIdx) (v : Word) (s : State) : (writeResult dr v s).fault = s.fault := rfl
@[simp] theorem mem_writeResult (dr : RegIdx) (v : Word) (s : State) : (writeResult dr v s).mem = s.mem := rfl
@[simp] theorem word_writeResult (dr : RegIdx) (v a : Word) (s : State) :
    (writeResult dr v s).word a = s.word a := rfl
@[simp] theorem out_writeResult (dr : RegIdx) (v : Word) (s : State) : (writeResult dr v s).out = s.out := rfl
@[simp] theorem host_writeResult (dr : RegIdx) (v : Word) (s : State) : (writeResult dr v s).host = s.host := rfl
@[simp] theorem params_writeResult (dr : RegIdx) (v : Word) (s : State) :
    (writeResult dr v s).params = s.params := rfl

@[simp] theorem reg_memWrite (a v : Word) (s : State) (r : RegIdx) : (memWrite a v s).reg r = s.reg r := rfl
@[simp] theorem pc_memWrite (a v : Word) (s : State) : (memWrite a v s).pc = s.pc := rfl
@[simp] theorem cond_memWrite (a v : Word) (s : State) : (memWrite a v s).cond = s.cond := rfl
@[simp] theorem running_memWrite (a v : Word) (s : State) : (memWrite a v s).running = s.running := rfl
@[simp] theorem fault_memWrite (a v : Word) (s : State) : (memWrite a v s).fault = s.fault := rfl
@[simp] theorem mem_memWrite (a v : Word) (s : State) : (memWrite a v s).mem = s.mem.write a v := rfl
@[simp] theorem out_memWrite (a v : Word) (s : State) : (memWrite a v s).out = s.out := rfl
@[simp] theorem host_memWrite (a v : Word) (s : State) : (memWrite a v s).host = s.host := rfl
@[simp] theorem params_memWrite (a v : Word) (s : State) : (memWrite a v s).params = s.params := rfl

@[simp] theorem reg_emit (bs : List Byte) (s : State) (r : RegIdx) : (emit bs s).reg r = s.reg r := rfl
@[simp] theorem pc_emit (bs : List Byte) (s : State) : (emit bs s).pc = s.pc := rfl
@[simp] theorem cond_emit (bs : List Byte) (s : State) : (emit bs s).cond = s.cond := rfl
@[simp] theorem running_emit (bs : List Byte) (s : State) : (emit bs s).running = s.running := rfl
@[simp] theorem fault_emit (bs : List Byte) (s : State) : (emit bs s).fault = s.fault := rfl
@[simp] theorem mem_emit (bs : List Byte) (s : State) : (emit bs s).mem = s.mem := rfl
@[simp] theorem word_emit (bs : List Byte) (s : State) (a : Word) : (emit bs s).word a = s.word a := rfl
@[simp] theorem out_emit (bs : List Byte) (s : State) : (emit bs s).out = s.out ++ bs := rfl
@[simp] theorem host_emit (bs : List Byte) (s : State) : (emit bs s).host = s.host := rfl
@[simp] theorem params_emit (bs : List Byte) (s : State) : (emit bs s).params = s.params := rfl

@[simp] theorem reg_raise (f : FaultStatus) (s : State) (r : RegIdx) : (raise f s).reg r = s.reg r := rfl
@[simp] theorem pc_raise (f : FaultStatus) (s : State) : (raise f s).pc = s.pc := rfl
@[simp] theorem cond_raise (f : FaultStatus) (s : State) : (raise f s).cond = s.cond := rfl
@[simp] theorem running_raise (f : FaultStatus) (s : State) : (raise f s).running = s.running := rfl
@[simp] theorem fault_raise (f : FaultStatus) (s : State) : (raise f s).fault = f := rfl
@[simp] theorem mem_raise (f : FaultStatus) (s : State) : (raise f s).mem = s.mem := rfl
@[simp] theorem word_raise (f : FaultStatus) (s : State) (a : Word) : (raise f s).word a = s.word a := rfl
@[simp] theorem out_raise (f : FaultStatus) (s : State) : (raise f s).out = s.out := rfl
@[simp] theorem host_raise (f : FaultStatus) (s : State) : (raise f s).host = s.host := rfl
@[simp] theorem params_raise (f : FaultStatus) (s : State) : (raise f s).params = s.params := rfl

/-- Replacing the host's side changes no register and no word of memory. -/
@[simp] theorem State.reg_withHost (s : State) (h : HostSide) (r : RegIdx) :
    State.reg { s with host := h } r = s.reg r := rfl
@[simp] theorem State.word_withHost (s : State) (h : HostSide) (a : Word) :
    State.word { s with host := h } a = s.word a := rfl

end Sys2Proof.Machine
end

