-- ==== Sys2Proof/Laws/Memory.lean ====
section
/-!
SUPPORT. The list that holds memory: a read after a write, the canonical form, and that two memories in
canonical form that read alike are the same data.
-/

namespace Sys2Proof.Machine

theorem Memory.read_cons (k : Nat) (w : Word) (m : Memory) (a : Word) :
    Memory.read ((k, w) :: m) a = if k = a.toNat then w else m.read a := rfl

theorem Memory.wfFrom_cons {lo k : Nat} {w : Word} {m : Memory} :
    Memory.wfFrom lo ((k, w) :: m) = true ↔
      lo ≤ k ∧ k < 65536 ∧ w ≠ Memory.unlisted ∧ Memory.wfFrom (k + 1) m = true := by
  simp only [Memory.wfFrom, Bool.and_eq_true, decide_eq_true_eq, and_assoc]
  rfl

theorem Memory.wfFrom_mono {lo lo' : Nat} {m : Memory} (h : Memory.wfFrom lo m = true) (hle : lo' ≤ lo) :
    Memory.wfFrom lo' m = true := by
  cases m with
  | nil => rfl
  | cons c m =>
    obtain ⟨h1, h2, h3, h4⟩ := Memory.wfFrom_cons.1 h
    exact Memory.wfFrom_cons.2 ⟨by omega, h2, h3, h4⟩

/-- Below its first address a canonical list reads as unlisted. -/
theorem Memory.read_below {lo : Nat} {m : Memory} (h : Memory.wfFrom lo m = true) {a : Word}
    (ha : a.toNat < lo) : Memory.read m a = Memory.unlisted := by
  induction m generalizing lo with
  | nil => rfl
  | cons c m ih =>
    obtain ⟨h1, -, -, h4⟩ := Memory.wfFrom_cons.1 h
    rw [Memory.read_cons, if_neg (by omega)]
    exact ih h4 (by omega)

theorem Memory.wfFrom_insert {lo : Nat} {m : Memory} (h : Memory.wfFrom lo m = true) (a : Word) {v : Word}
    (hv : v ≠ Memory.unlisted) (ha : lo ≤ a.toNat) : Memory.wfFrom lo (m.insert a v) = true := by
  have hlt : a.toNat < 65536 := a.isLt
  induction m generalizing lo with
  | nil => exact Memory.wfFrom_cons.2 ⟨ha, hlt, hv, rfl⟩
  | cons c m ih =>
    obtain ⟨h1, h2, h3, h4⟩ := Memory.wfFrom_cons.1 h
    unfold Memory.insert
    split
    · exact Memory.wfFrom_cons.2 ⟨h1, h2, h3, ih h4 (by omega)⟩
    · split
      · exact Memory.wfFrom_cons.2 ⟨h1, h2, hv, h4⟩
      · exact Memory.wfFrom_cons.2 ⟨ha, hlt, hv, Memory.wfFrom_cons.2 ⟨by omega, h2, h3, h4⟩⟩

theorem Memory.wfFrom_erase {lo : Nat} {m : Memory} (h : Memory.wfFrom lo m = true) (a : Word) :
    Memory.wfFrom lo (m.erase a) = true := by
  unfold Memory.erase
  induction m generalizing lo with
  | nil => rfl
  | cons c m ih =>
    obtain ⟨h1, h2, h3, h4⟩ := Memory.wfFrom_cons.1 h
    rw [List.filter_cons]
    split
    · exact Memory.wfFrom_cons.2 ⟨h1, h2, h3, ih h4⟩
    · exact Memory.wfFrom_mono (ih h4) (by omega)

/-- A write keeps the canonical form. -/
theorem Memory.wf_write {m : Memory} (h : m.wf = true) (a v : Word) : (m.write a v).wf = true := by
  unfold Memory.write
  split
  · exact Memory.wfFrom_erase h a
  · rename_i hv
    exact Memory.wfFrom_insert h a hv (Nat.zero_le _)

theorem Memory.read_insert (m : Memory) (a v b : Word) :
    (m.insert a v).read b = if b = a then v else m.read b := by
  have inj : ∀ {k : Nat}, k = a.toNat → (k = b.toNat ↔ b = a) := fun e => by
    rw [e, ← BitVec.toNat_inj]; exact eq_comm
  induction m with
  | nil => simp only [Memory.insert, Memory.read, inj rfl]
  | cons c m ih =>
    obtain ⟨k, w⟩ := c
    unfold Memory.insert
    split
    · rw [Memory.read_cons, ih, Memory.read_cons]
      by_cases hb : b = a
      · rw [if_pos hb, if_pos hb, if_neg (by rw [hb]; omega)]
      · rw [if_neg hb, if_neg hb]
    · split
      · rename_i e
        simp only [Memory.read_cons, inj e]
        by_cases hb : b = a <;> simp [hb]
      · rw [Memory.read_cons]
        simp only [inj rfl]

theorem Memory.read_erase (m : Memory) (a b : Word) :
    (m.erase a).read b = if b = a then Memory.unlisted else m.read b := by
  unfold Memory.erase
  induction m with
  | nil => simp [Memory.read]
  | cons c m ih =>
    obtain ⟨k, w⟩ := c
    rw [List.filter_cons]
    by_cases hk : k = a.toNat
    · have hkb : k = b.toNat ↔ b = a := by rw [hk, ← BitVec.toNat_inj]; exact eq_comm
      rw [if_neg (by simp [hk]), ih, Memory.read_cons]
      by_cases hb : b = a
      · rw [if_pos hb, if_pos hb]
      · rw [if_neg hb, if_neg hb, if_neg (fun e => hb (hkb.1 e))]
    · rw [if_pos (by simpa using hk), Memory.read_cons, Memory.read_cons, ih]
      by_cases hb : b = a
      · rw [if_pos hb, if_pos hb, if_neg (by rw [hb]; exact hk)]
      · rw [if_neg hb, if_neg hb]

/-- A read after a write: where the write went the word written, elsewhere as before. -/
theorem Memory.read_write (m : Memory) (a v b : Word) :
    (m.write a v).read b = if b = a then v else m.read b := by
  unfold Memory.write
  split
  · rename_i hv
    rw [Memory.read_erase, hv]
  · exact Memory.read_insert m a v b

/-- The same for a state. -/
theorem word_memWrite (a v : Word) (s : State) (b : Word) :
    (memWrite a v s).word b = if b = a then v else s.word b :=
  Memory.read_write s.mem a v b

@[simp] theorem word_memWrite_self (a v : Word) (s : State) : (memWrite a v s).word a = v := by
  simp [word_memWrite]

theorem toNat_ofNat_of_lt {k : Nat} (h : k < 65536) : (BitVec.ofNat 16 k).toNat = k := by
  rw [BitVec.toNat_ofNat]
  omega

theorem Memory.read_head {k : Nat} (w : Word) (m : Memory) (h : k < 65536) :
    Memory.read ((k, w) :: m) (BitVec.ofNat 16 k) = w := by
  rw [Memory.read, if_pos (toNat_ofNat_of_lt h).symm]

/-- Two memories in canonical form that read alike at every address are the same list. -/
theorem Memory.ext_of_wf {m n : Memory} (hm : m.wf = true) (hn : n.wf = true)
    (h : ∀ a, m.read a = n.read a) : m = n := by
  have key : ∀ lo, Memory.wfFrom lo m = true → Memory.wfFrom lo n = true →
      (∀ a : Word, lo ≤ a.toNat → m.read a = n.read a) → m = n := by
    clear hm hn h
    induction m generalizing n with
    | nil =>
      intro lo _ hn h
      cases n with
      | nil => rfl
      | cons c n =>
        obtain ⟨hlo, hk, hw, -⟩ := Memory.wfFrom_cons.1 hn
        have := h (BitVec.ofNat 16 c.1) (by rw [toNat_ofNat_of_lt hk]; exact hlo)
        exact absurd ((Memory.read_head c.2 n hk).symm.trans this.symm) hw
    | cons c m ih =>
      obtain ⟨k, w⟩ := c
      intro lo hm hn h
      obtain ⟨hlo, hk, hw, hm⟩ := Memory.wfFrom_cons.1 hm
      have hread := h (BitVec.ofNat 16 k) (by rw [toNat_ofNat_of_lt hk]; exact hlo)
      rw [Memory.read_head w m hk] at hread
      cases n with
      | nil => exact absurd hread hw
      | cons d n =>
        obtain ⟨k', w'⟩ := d
        obtain ⟨hlo', hk', hw', hn⟩ := Memory.wfFrom_cons.1 hn
        have hkk : k = k' := by
          rcases Nat.lt_trichotomy k k' with hlt | heq | hgt
          · have : k' ≠ (BitVec.ofNat 16 k).toNat := by rw [toNat_ofNat_of_lt hk]; omega
            rw [Memory.read, if_neg this, Memory.read_below hn (by rw [toNat_ofNat_of_lt hk]; omega)] at hread
            exact absurd hread hw
          · exact heq
          · have hread' := h (BitVec.ofNat 16 k') (by rw [toNat_ofNat_of_lt hk']; exact hlo')
            have : k ≠ (BitVec.ofNat 16 k').toNat := by rw [toNat_ofNat_of_lt hk']; omega
            rw [Memory.read_head w' n hk', Memory.read, if_neg this,
              Memory.read_below hm (by rw [toNat_ofNat_of_lt hk']; omega)] at hread'
            exact absurd hread'.symm hw'
        subst hkk
        rw [Memory.read_head w' n hk] at hread
        rw [hread, ih (k + 1) hm hn fun a ha => by
          have := h a (by omega)
          rwa [Memory.read, if_neg (by omega), Memory.read, if_neg (by omega)] at this]
  exact key 0 hm hn fun a _ => h a

end Sys2Proof.Machine
end

