-- ==== Sys2Proof/Laws/Ops.lean ====
section
/-!
SUPPORT. One lemma for each shared operation, saying once what it can do: taking a byte, a poll, the
memory read operation, the fetch, the string loop, the trap dispatch, the image store.
-/

namespace Sys2Proof.Machine

/-! ## The host's side -/

/-- A byte taken is the first one listed, or a free one after the listed ones when the host goes on. -/
theorem takeByte_some {h h' : HostSide} {b : Byte} (e : takeByte h = some (b, h')) :
    (∃ rest, h.input = b :: rest ∧ h' = { h with input := rest }) ∨
      (h.input = [] ∧ h.ended = false ∧ b = Config.hostByte h.byteDraws ∧
        h' = { h with byteDraws := h.byteDraws + 1 }) := by
  unfold takeByte at e
  split at e
  · simp_all
  · split at e
    · exact absurd e (by simp)
    · obtain ⟨rfl, rfl⟩ := Prod.mk.inj (Option.some.inj e)
      exact .inr ⟨by assumption, by simpa using ‹¬h.ended = true›, rfl, rfl⟩

/-- There is no byte to take exactly when none is listed and the input has ended. -/
theorem takeByte_none {h : HostSide} : takeByte h = none ↔ h.input = [] ∧ h.ended = true := by
  unfold takeByte
  split <;> simp_all

/-- A poll either answers no, or takes the next byte of the stream; an answer of the host is used. -/
theorem pollKey_cases (h : HostSide) :
    ((takeAnswer h).1 = true ∧ ∃ k h', takeByte (takeAnswer h).2 = some (k, h') ∧ pollKey h = (some k, h')) ∨
      (pollKey h = (none, (takeAnswer h).2) ∧
        ((takeAnswer h).1 = false ∨ takeByte (takeAnswer h).2 = none)) := by
  unfold pollKey
  split
  · simp_all
  · split <;> simp_all

/-- An answer leaves the input stream alone. -/
@[simp] theorem takeAnswer_input (h : HostSide) : (takeAnswer h).2.input = h.input := by
  unfold takeAnswer; split <;> rfl

@[simp] theorem takeAnswer_ended (h : HostSide) : (takeAnswer h).2.ended = h.ended := by
  unfold takeAnswer; split <;> rfl

@[simp] theorem takeAnswer_byteDraws (h : HostSide) : (takeAnswer h).2.byteDraws = h.byteDraws := by
  unfold takeAnswer; split <;> rfl

/-! ## The memory read operation -/

/-- A poll writes the two keyboard cells and the host's side, and nothing else. -/
theorem kbsrPoll_frame (s : State) :
    ∃ m h, kbsrPoll s = { s with mem := m, host := h } ∧ (s.mem.wf = true → m.wf = true) ∧
      (∀ a, a ≠ kbsrAddr → a ≠ kbdrAddr → m.read a = s.mem.read a) := by
  unfold kbsrPoll
  split
  · rename_i k h _
    refine ⟨(s.mem.write kbsrAddr kbsrReady).write kbdrAddr (zext k), h, rfl,
      fun hw => Memory.wf_write (Memory.wf_write hw _ _) _ _, fun a h1 h2 => ?_⟩
    rw [Memory.read_write, if_neg h2, Memory.read_write, if_neg h1]
  · rename_i h _
    refine ⟨s.mem.write kbsrAddr 0#16, h, rfl, fun hw => Memory.wf_write hw _ _, fun a h1 _ => ?_⟩
    rw [Memory.read_write, if_neg h1]

/-- After `MemRead` only the two keyboard cells and the host's side can have changed, and those only
when the address is KBSR's. -/
theorem afterRead_frame (a : Word) (s : State) :
    ∃ m h, afterRead a s = { s with mem := m, host := h } ∧ (s.mem.wf = true → m.wf = true) ∧
      (∀ b, b ≠ kbsrAddr → b ≠ kbdrAddr → m.read b = s.mem.read b) ∧
      (a ≠ kbsrAddr → m = s.mem ∧ h = s.host) := by
  unfold afterRead
  split
  · rename_i e
    obtain ⟨m, h, h1, h2, h3⟩ := kbsrPoll_frame s
    exact ⟨m, h, h1, h2, h3, fun hn => absurd e hn⟩
  · exact ⟨s.mem, s.host, rfl, id, fun _ _ _ => rfl, fun _ => ⟨rfl, rfl⟩⟩

theorem afterRead_of_ne {a : Word} (h : a ≠ kbsrAddr) (s : State) : afterRead a s = s := if_neg h

theorem afterRead_kbsr (s : State) : afterRead kbsrAddr s = kbsrPoll s := if_pos rfl

@[simp] theorem reg_afterRead (a : Word) (s : State) (r : RegIdx) : (afterRead a s).reg r = s.reg r := by
  obtain ⟨m, h, e, -⟩ := afterRead_frame a s; rw [e]; rfl
@[simp] theorem pc_afterRead (a : Word) (s : State) : (afterRead a s).pc = s.pc := by
  obtain ⟨m, h, e, -⟩ := afterRead_frame a s; rw [e]
@[simp] theorem cond_afterRead (a : Word) (s : State) : (afterRead a s).cond = s.cond := by
  obtain ⟨m, h, e, -⟩ := afterRead_frame a s; rw [e]
@[simp] theorem running_afterRead (a : Word) (s : State) : (afterRead a s).running = s.running := by
  obtain ⟨m, h, e, -⟩ := afterRead_frame a s; rw [e]
@[simp] theorem fault_afterRead (a : Word) (s : State) : (afterRead a s).fault = s.fault := by
  obtain ⟨m, h, e, -⟩ := afterRead_frame a s; rw [e]
@[simp] theorem out_afterRead (a : Word) (s : State) : (afterRead a s).out = s.out := by
  obtain ⟨m, h, e, -⟩ := afterRead_frame a s; rw [e]
@[simp] theorem params_afterRead (a : Word) (s : State) : (afterRead a s).params = s.params := by
  obtain ⟨m, h, e, -⟩ := afterRead_frame a s; rw [e]

theorem wf_afterRead {s : State} (hw : s.mem.wf = true) (a : Word) : (afterRead a s).mem.wf = true := by
  obtain ⟨m, h, e, h2, -⟩ := afterRead_frame a s; rw [e]; exact h2 hw

theorem word_afterRead_of_ne (a : Word) (s : State) {b : Word} (h1 : b ≠ kbsrAddr) (h2 : b ≠ kbdrAddr) :
    (afterRead a s).word b = s.word b := by
  obtain ⟨m, h, e, -, h3, -⟩ := afterRead_frame a s; rw [e]; exact h3 b h1 h2

/-- A poll that finds a key: KBSR reads 0x8000 and KBDR the key, zero-extended. -/
theorem kbsrPoll_key {s : State} {k : Byte} {h : HostSide} (e : pollKey s.host = (some k, h)) :
    kbsrPoll s = memWrite kbdrAddr (zext k) (memWrite kbsrAddr kbsrReady { s with host := h }) := by
  unfold kbsrPoll
  rw [e]

/-- A poll that finds none: KBSR reads 0x0000 and KBDR is kept. -/
theorem kbsrPoll_noKey {s : State} {h : HostSide} (e : pollKey s.host = (none, h)) :
    kbsrPoll s = memWrite kbsrAddr 0#16 { s with host := h } := by
  unfold kbsrPoll
  rw [e]

@[simp] theorem memRead_snd (a : Word) (s : State) : (memRead a s).2 = afterRead a s := rfl

@[simp] theorem memRead_fst (a : Word) (s : State) : (memRead a s).1 = (afterRead a s).word a := rfl

/-! ## Fetch -/

@[simp] theorem fetch_fst (s : State) : (fetch s).1 = (afterRead s.pc s).word s.pc := rfl

@[simp] theorem fetch_snd (s : State) : (fetch s).2 = (afterRead s.pc s).setPc (s.pc + 1#16) := rfl

/-! ## Every named update keeps the canonical form of memory -/

theorem wf_memWrite {s : State} (hw : s.mem.wf = true) (a v : Word) : (memWrite a v s).mem.wf = true :=
  Memory.wf_write hw a v

theorem wf_storeWords {s : State} (hw : s.mem.wf = true) (a : Word) (ws : List Word) :
    (storeWords a ws s).mem.wf = true := by
  induction ws generalizing a s with
  | nil => exact hw
  | cons w ws ih => exact ih (wf_memWrite hw a w) _

/-! ## The string loop -/

/-- A string ends at its first zero word, and the bytes are those of the words before it. -/
theorem stringBytes_some {chars : Word → List Byte} {m : Memory} {k : Nat} {a : Word} {bs : List Byte}
    (h : stringBytes chars m k a = some bs) :
    ∃ n, n < k ∧ (∀ i < n, m.read (a + BitVec.ofNat 16 i) ≠ 0#16) ∧ m.read (a + BitVec.ofNat 16 n) = 0#16 ∧
      bs = ((List.range n).map (fun i => chars (m.read (a + BitVec.ofNat 16 i)))).flatten := by
  induction k generalizing a bs with
  | zero => simp [stringBytes] at h
  | succ k ih =>
    unfold stringBytes at h
    split at h
    · refine ⟨0, by omega, by omega, by simpa, ?_⟩
      simp_all
    · rename_i hz
      obtain ⟨bs', hb, rfl⟩ := Option.map_eq_some_iff.1 h
      obtain ⟨n, hn, hne, hend, rfl⟩ := ih hb
      have shift : ∀ i, a + 1#16 + BitVec.ofNat 16 i = a + BitVec.ofNat 16 (i + 1) := fun i => by
        rw [BitVec.add_assoc, Nat.add_comm i 1, BitVec.ofNat_add]
      refine ⟨n + 1, by omega, fun i hi => ?_, by rw [← shift]; exact hend, ?_⟩
      · cases i with
        | zero => simpa using hz
        | succ i => rw [← shift]; exact hne i (by omega)
      · simp [List.range_succ_eq_map, Function.comp_def, shift]

/-- A string never ends when none of the words looked at is zero. -/
theorem stringBytes_none {chars : Word → List Byte} {m : Memory} {k : Nat} {a : Word} :
    stringBytes chars m k a = none ↔ ∀ i < k, m.read (a + BitVec.ofNat 16 i) ≠ 0#16 := by
  induction k generalizing a with
  | zero => simp [stringBytes]
  | succ k ih =>
    have shift : ∀ i, a + 1#16 + BitVec.ofNat 16 i = a + BitVec.ofNat 16 (i + 1) := fun i => by
      rw [BitVec.add_assoc, Nat.add_comm i 1, BitVec.ofNat_add]
    unfold stringBytes
    split
    · rename_i hz
      simp only [reduceCtorEq, false_iff]
      exact fun h => h 0 (by omega) (by simpa using hz)
    · rename_i hz
      rw [Option.map_eq_none_iff, ih]
      constructor
      · intro h i hi
        cases i with
        | zero => simpa using hz
        | succ i => rw [← shift]; exact h i (by omega)
      · intro h i hi
        rw [shift]; exact h (i + 1) (by omega)

/-- PUTS and PUTSP: either the console output grows and nothing else changes, or the loop never ends. -/
theorem writeString_cases (chars : Word → List Byte) (s : State) :
    (∃ bs, stringBytes chars s.mem memWords (s.reg argReg) = some bs ∧ writeString chars s = .next (emit bs s)) ∨
      (stringBytes chars s.mem memWords (s.reg argReg) = none ∧ writeString chars s = .fault .stringNeverEnds) := by
  unfold writeString
  split <;> simp_all

/-! ## The trap dispatch -/

/-- A routine's vector selects it. -/
@[simp] theorem routineOf_trapVector (r : TrapRoutine) : routineOf (Config.trapVector r) = some r := by
  cases r <;> decide

/-- The routine an instruction row names runs after the link write. -/
theorem execTrap_of_routine {v : Byte} {r : TrapRoutine} (h : routineOf v = some r) (s : State) :
    execTrap v s = runRoutine r (link s) := by
  simp [execTrap, h]

/-- A vector no row names does nothing more than the link write, or records the fault. -/
theorem execTrap_of_none {v : Byte} (h : routineOf v = none) (s : State) :
    execTrap v s = .next (if s.params.unknownTrap = .noop then link s else raiseUnknownTrap v (link s)) := by
  simp only [execTrap, h, unknownVector, params_link]
  cases s.params.unknownTrap <;> rfl

end Sys2Proof.Machine
end

