-- ==== Sys2Proof/Laws/PerInstr.lean ====
section
/-!
SUPPORT. The family OpcodeField: bits 15:12 of an instruction's word are the number the opcode map gives
its opcode (30_encoding.md rules R81, R82), one lemma for each constructor.
-/

namespace Sys2Proof.Laws.OpcodeField

/-- Bits 15:12 of the instruction's word select its opcode. -/
def Statement (i : Instr) : Prop := opcodeOf (field (encode i) 12 4) = i.opcode

theorem of_encode (i : Instr) : Statement i := by
  simp [Statement, encode]

theorem addr (dr sr1 sr2 : RegIdx) : Statement (.addr dr sr1 sr2) := of_encode _
theorem addi (dr sr1 : RegIdx) (imm5 : BitVec 5) : Statement (.addi dr sr1 imm5) := of_encode _
theorem andr (dr sr1 sr2 : RegIdx) : Statement (.andr dr sr1 sr2) := of_encode _
theorem andi (dr sr1 : RegIdx) (imm5 : BitVec 5) : Statement (.andi dr sr1 imm5) := of_encode _
theorem not (dr sr : RegIdx) : Statement (.not dr sr) := of_encode _
theorem br (nzp : BitVec 3) (pcOffset9 : BitVec 9) : Statement (.br nzp pcOffset9) := of_encode _
theorem jmp (baseR : RegIdx) : Statement (.jmp baseR) := of_encode _
theorem ret : Statement .ret := of_encode _
theorem jsr (pcOffset11 : BitVec 11) : Statement (.jsr pcOffset11) := of_encode _
theorem jsrr (baseR : RegIdx) : Statement (.jsrr baseR) := of_encode _
theorem ld (dr : RegIdx) (pcOffset9 : BitVec 9) : Statement (.ld dr pcOffset9) := of_encode _
theorem ldi (dr : RegIdx) (pcOffset9 : BitVec 9) : Statement (.ldi dr pcOffset9) := of_encode _
theorem ldr (dr baseR : RegIdx) (offset6 : BitVec 6) : Statement (.ldr dr baseR offset6) := of_encode _
theorem lea (dr : RegIdx) (pcOffset9 : BitVec 9) : Statement (.lea dr pcOffset9) := of_encode _
theorem st (sr : RegIdx) (pcOffset9 : BitVec 9) : Statement (.st sr pcOffset9) := of_encode _
theorem sti (sr : RegIdx) (pcOffset9 : BitVec 9) : Statement (.sti sr pcOffset9) := of_encode _
theorem str (sr baseR : RegIdx) (offset6 : BitVec 6) : Statement (.str sr baseR offset6) := of_encode _
theorem trap (vector : Byte) : Statement (.trap vector) := of_encode _
theorem getc : Statement .getc := of_encode _
theorem out : Statement .out := of_encode _
theorem puts : Statement .puts := of_encode _
theorem inp : Statement .inp := of_encode _
theorem putsp : Statement .putsp := of_encode _
theorem halt : Statement .halt := of_encode _
theorem rti (low : BitVec 12) : Statement (.rti low) := of_encode _
theorem res (low : BitVec 12) : Statement (.res low) := of_encode _

end Sys2Proof.Laws.OpcodeField
end

