-- ==== Sys2Proof/Laws/Step.lean ====
section
/-!
SUPPORT. What one step can do: it runs only in mid-run, and then it is the execute part on the state the
fetch leaves.
-/

namespace Sys2Proof.Machine

/-- A step that answers a next state was enabled, and ran the instruction fetched. -/
theorem step_next {s t : State} (h : step s = .next t) :
    s.midRun ∧ exec (decode (fetch s).1) (fetch s).2 = .next t := by
  unfold step at h
  split at h <;> simp_all [State.midRun]

/-- A step that stops was not enabled, or its instruction stopped. -/
theorem step_fault {s : State} {f : Fault} (h : step s = .fault f) :
    (s.running = false ∧ f = .notRunning) ∨ (s.running = true ∧ s.fault ≠ .none ∧ f = .faultRecorded) ∨
      (s.midRun ∧ exec (decode (fetch s).1) (fetch s).2 = .fault f) := by
  unfold step at h
  split at h <;> simp_all [State.midRun]

end Sys2Proof.Machine
end

