-- ==== Sys2Proof/Tests/Slice0.lean ====
section
/-!
SUPPORT. The model's own tests, each about one step or one decoded word, with the expected results of
95_test_vectors.md (named in each comment), and a witness for the hypotheses of every statement that has
some.
-/

open Sys2Proof Sys2Proof.Machine Sys2Proof.Claims

namespace Sys2Proof.Tests

/-! ## Helpers -/

/-- The start state of 95_test_vectors.md: reset, running. -/
def start : State := startRun State.reset

/-- The start state with the word `w` at `pc`. -/
def at0 (w : Word) (s : State) : State := memWrite s.pc w s

/-- The start state with a host that lists its bytes and answers, and nothing after the bytes. -/
def withHost (input : List Byte) (answers : List Bool) (s : State) : State :=
  { s with host := { input := input, ended := true, byteDraws := 0, answers := answers, answerDraws := 0 } }

/-- One step answers a next state of which `f` holds. -/
def after (s : State) (f : State → Bool) : Bool :=
  match step s with
  | .next t => f t
  | .fault _ => false
  | .refused _ => false

/-- One step stops with this reason. -/
def stops (s : State) (r : Fault) : Bool :=
  match step s with
  | .fault r' => r' = r
  | .next _ => false
  | .refused _ => false

/-! ## WellFormed: an ill-formed term for each check, which the check refuses -/

theorem test_wellFormed_refuses_jmp_r7 : WellFormed (.jmp 7#3) = false := by decide
theorem test_wellFormed_refuses_trap_x20 : WellFormed (.trap 0x20#8) = false := by decide
theorem test_wellFormed_refuses_trap_x25 : WellFormed (.trap 0x25#8) = false := by decide
theorem test_wellFormed_takes_neighbours :
    (WellFormed (.jmp 6#3) && WellFormed (.trap 0x1F#8) && WellFormed (.trap 0x26#8)) = true := by decide

/-! ## Decoding: a word written out bit by bit from the encoding tables R83 to R91, for every constructor -/

theorem test_decode_addr : decode 0b0001_010_000_0_00_001#16 = .addr 2#3 0#3 1#3 := by decide
theorem test_decode_addr_ignores_4_3 : decode 0b0001_010_000_0_11_001#16 = .addr 2#3 0#3 1#3 := by decide
theorem test_decode_addi : decode 0b0001_001_110_1_10110#16 = .addi 1#3 6#3 0b10110#5 := by decide
theorem test_decode_andr : decode 0b0101_010_101_0_00_011#16 = .andr 2#3 5#3 3#3 := by decide
theorem test_decode_andi : decode 0b0101_111_000_1_01111#16 = .andi 7#3 0#3 0b01111#5 := by decide
theorem test_decode_not : decode 0b1001_001_100_000000#16 = .not 1#3 4#3 := by decide
theorem test_decode_br : decode 0b0000_011_111111101#16 = .br 0b011#3 0b111111101#9 := by decide
theorem test_decode_jmp : decode 0b1100_111_010_111111#16 = .jmp 2#3 := by decide
theorem test_decode_ret : decode 0b1100_000_111_000000#16 = .ret := by decide
theorem test_decode_jsr : decode 0b0100_1_10000000010#16 = .jsr 0b10000000010#11 := by decide
theorem test_decode_jsrr : decode 0b0100_0_11_011_111111#16 = .jsrr 3#3 := by decide
theorem test_decode_ld : decode 0b0010_101_000000101#16 = .ld 5#3 5#9 := by decide
theorem test_decode_ldi : decode 0b1010_011_100000100#16 = .ldi 3#3 0b100000100#9 := by decide
theorem test_decode_ldr : decode 0b0110_001_010_111111#16 = .ldr 1#3 2#3 0b111111#6 := by decide
theorem test_decode_lea : decode 0b1110_110_011111111#16 = .lea 6#3 0b011111111#9 := by decide
theorem test_decode_st : decode 0b0011_100_000000011#16 = .st 4#3 3#9 := by decide
theorem test_decode_sti : decode 0b1011_010_000000010#16 = .sti 2#3 2#9 := by decide
theorem test_decode_str : decode 0b0111_001_010_100000#16 = .str 1#3 2#3 0b100000#6 := by decide
theorem test_decode_trap : decode 0b1111_0000_00100110#16 = .trap 0x26#8 := by decide
theorem test_decode_getc : decode 0b1111_0000_00100000#16 = .getc := by decide
theorem test_decode_out : decode 0b1111_0000_00100001#16 = .out := by decide
theorem test_decode_puts : decode 0b1111_0000_00100010#16 = .puts := by decide
theorem test_decode_inp : decode 0b1111_0000_00100011#16 = .inp := by decide
theorem test_decode_putsp : decode 0b1111_0000_00100100#16 = .putsp := by decide
theorem test_decode_halt : decode 0b1111_1010_00100101#16 = .halt := by decide
theorem test_decode_rti : decode 0b1000_111111111111#16 = .rti 0xFFF#12 := by decide
theorem test_decode_res : decode 0b1101_101010111100#16 = .res 0xABC#12 := by decide

/-- The canonical words of R97 for the forms whose ignored bits the encoder fills in. -/
theorem test_encode_canonical_words :
    encode (.not 1#3 0#3) = 0x923F#16 ∧ encode .ret = 0xC1C0#16 ∧ encode (.jsrr 3#3) = 0x40C0#16 ∧
      encode .halt = 0xF025#16 ∧ encode (.br 0b011#3 0x1FD#9) = 0x07FD#16 := by decide

theorem test_table_word : decodeTableWord 16 0x1401 = some (.addr 2#3 0#3 1#3) := by decide

/-! ## Operands: S1's instances -/

theorem test_sext_s1 : sext 0x10#5 = 0xFFF0#16 ∧ sext 0x20#6 = 0xFFE0#16 ∧ sext 0x1FD#9 = 0xFFFD#16 ∧
    sext 0x400#11 = 0xFC00#16 ∧ sext 0x3FF#11 = 0x03FF#16 := by decide

/-! ## ADD, AND, NOT (section 2.1) -/

/-- V-OP3. -/
theorem test_add_wraps : after (at0 0x1401#16 ((start.setReg 0 0xFFFF#16).setReg 1 1#16))
    (fun t => t.reg 2 = 0#16 ∧ t.cond = .zro ∧ t.pc = 0x3001#16) = true := by decide
/-- V-OP5. -/
theorem test_add_same_register_three_times : after (at0 0x1000#16 (start.setReg 0 0x4000#16))
    (fun t => t.reg 0 = 0x8000#16 ∧ t.cond = .neg) = true := by decide
/-- V-OP8. -/
theorem test_addi_smallest : after (at0 0x1270#16 (start.setReg 1 0x0010#16))
    (fun t => t.reg 1 = 0#16 ∧ t.cond = .zro) = true := by decide
/-- V-OP6. -/
theorem test_addi_minus_one : after (at0 0x127F#16 start)
    (fun t => t.reg 1 = 0xFFFF#16 ∧ t.cond = .neg) = true := by decide
/-- V-OP11. -/
theorem test_and_register : after (at0 0x5401#16 ((start.setReg 0 0xF0F0#16).setReg 1 0xFF00#16))
    (fun t => t.reg 2 = 0xF000#16 ∧ t.cond = .neg) = true := by decide
/-- V-OP14. -/
theorem test_andi_positive : after (at0 0x522F#16 (start.setReg 0 0xABCD#16))
    (fun t => t.reg 1 = 0x000D#16 ∧ t.cond = .pos) = true := by decide
/-- V-OP15. -/
theorem test_andi_sign_extends : after (at0 0x5230#16 (start.setReg 0 0xABCD#16))
    (fun t => t.reg 1 = 0xABC0#16 ∧ t.cond = .neg) = true := by decide
/-- V-OP18. -/
theorem test_not_same_register : after (at0 0x903F#16 (start.setReg 0 0x7FFF#16))
    (fun t => t.reg 0 = 0x8000#16 ∧ t.cond = .neg) = true := by decide

/-! ## Control (section 2.2) -/

/-- V-BR, row 110: taken under NEG and ZRO, not under POS. -/
theorem test_br_nz : after (at0 0x0C05#16 { start with cond := .neg }) (fun t => t.pc = 0x3006#16) = true ∧
    after (at0 0x0C05#16 { start with cond := .zro }) (fun t => t.pc = 0x3006#16) = true ∧
    after (at0 0x0C05#16 { start with cond := .pos }) (fun t => t.pc = 0x3001#16) = true := by decide
/-- V-CT4: pc wraps. -/
theorem test_br_wraps : after (at0 0x0E01#16 (start.setPc 0xFFFF#16)) (fun t => t.pc = 0x0001#16) = true := by
  decide
/-- V-CT8: ignored bits. -/
theorem test_jmp : after (at0 0xCEBF#16 (start.setReg 2 0x4000#16)) (fun t => t.pc = 0x4000#16) = true := by decide
/-- V-CT9. -/
theorem test_ret : after (at0 0xC1C0#16 (start.setReg 7 0x3005#16)) (fun t => t.pc = 0x3005#16) = true := by decide
/-- V-CT12. -/
theorem test_jsr_smallest : after (at0 0x4C00#16 start)
    (fun t => t.reg 7 = 0x3001#16 ∧ t.pc = 0x2C01#16) = true := by decide
/-- V-CT15: the link value wraps. -/
theorem test_jsr_link_wraps : after (at0 0x4800#16 (start.setPc 0xFFFF#16))
    (fun t => t.reg 7 = 0#16 ∧ t.pc = 0#16) = true := by decide
/-- V-CT16. -/
theorem test_jsrr : after (at0 0x40C0#16 (start.setReg 3 0x5000#16))
    (fun t => t.reg 7 = 0x3001#16 ∧ t.pc = 0x5000#16) = true := by decide
/-- V-CT17: JSRR R7 falls through. -/
theorem test_jsrr_r7 : after (at0 0x41C0#16 (start.setReg 7 0x5000#16))
    (fun t => t.reg 7 = 0x3001#16 ∧ t.pc = 0x3001#16) = true := by decide

/-! ## Loads and stores (sections 2.3, 2.4) -/

/-- V-LD2: its own word. -/
theorem test_ld_own_word : after (at0 0x21FF#16 start)
    (fun t => t.reg 0 = 0x21FF#16 ∧ t.cond = .pos) = true := by decide
/-- V-LD5: the address wraps with pc. -/
theorem test_ld_wraps : after (at0 0x2200#16 (memWrite 0#16 0x42#16 (start.setPc 0xFFFF#16)))
    (fun t => t.reg 1 = 0x42#16 ∧ t.cond = .pos ∧ t.pc = 0#16) = true := by decide
/-- V-LD6. -/
theorem test_ldi : after (at0 0xA004#16 (memWrite 0x4000#16 0xBEEF#16 (memWrite 0x3005#16 0x4000#16 start)))
    (fun t => t.reg 0 = 0xBEEF#16 ∧ t.cond = .neg) = true := by decide
/-- V-LD9: the address wraps below 0. -/
theorem test_ldr_wraps : after (at0 0x62BA#16 (memWrite 0xFFFF#16 0x8000#16 (start.setReg 2 5#16)))
    (fun t => t.reg 1 = 0x8000#16 ∧ t.cond = .neg) = true := by decide
/-- V-LD12: base and destination the same. -/
theorem test_ldr_same_register : after (at0 0x6480#16 (start.setReg 2 0x4000#16))
    (fun t => t.reg 2 = 0#16 ∧ t.cond = .zro) = true := by decide
/-- V-LD17: an address of 0x8000 sets NEG. -/
theorem test_lea_neg : after (at0 0xE6FF#16 (start.setPc 0x7F00#16))
    (fun t => t.reg 3 = 0x8000#16 ∧ t.cond = .neg) = true := by decide
/-- V-LD13, source example S5. -/
theorem test_lea_s5 : after (at0 0xE000#16 start)
    (fun t => t.reg 0 = 0x3001#16 ∧ t.cond = .pos ∧ t.pc = 0x3001#16) = true := by decide
/-- V-ST1: stores never touch cond. -/
theorem test_st : after (at0 0x3003#16 { start.setReg 0 0xABCD#16 with cond := .neg })
    (fun t => t.word 0x3004#16 = 0xABCD#16 ∧ t.cond = .neg) = true := by decide
/-- V-ST5: the pointer points at itself. -/
theorem test_sti_own_pointer : after (at0 0xB000#16 (memWrite 0x3001#16 0x3001#16 (start.setReg 0 0x5555#16)))
    (fun t => t.word 0x3001#16 = 0x5555#16) = true := by decide
/-- V-ST4: the pointer cell is unchanged. -/
theorem test_sti : after (at0 0xB002#16 (memWrite 0x3003#16 0x4000#16 (start.setReg 0 0x5555#16)))
    (fun t => t.word 0x4000#16 = 0x5555#16 ∧ t.word 0x3003#16 = 0x4000#16) = true := by decide
/-- V-ST8: source and base the same. -/
theorem test_str_same_register : after (at0 0x7481#16 (start.setReg 2 0x4000#16))
    (fun t => t.word 0x4001#16 = 0x4000#16) = true := by decide
/-- V-ST7: the address wraps below 0. -/
theorem test_str_wraps : after (at0 0x72A0#16 ((start.setReg 1 0xAA#16).setReg 2 0x10#16))
    (fun t => t.word 0xFFF0#16 = 0xAA#16) = true := by decide

/-! ## The keyboard registers (section 2.5) -/

/-- V-KB1. -/
theorem test_poll_takes_key :
    after (withHost [0x61#8] [true] (at0 0xA001#16 (memWrite 0x3002#16 0xFE00#16 start)))
    (fun t => t.word 0xFE00#16 = 0x8000#16 ∧ t.word 0xFE02#16 = 0x61#16 ∧ t.reg 0 = 0x8000#16 ∧ t.cond = .neg ∧
      t.host.input = []) = true := by decide
/-- V-KB2: no input, so none; KBDR is kept and the stored KBSR is gone. -/
theorem test_poll_no_key :
    after (withHost [] [true] (at0 0xA001#16 (memWrite 0xFE02#16 0x41#16 (memWrite 0xFE00#16 0x1234#16
      (memWrite 0x3002#16 0xFE00#16 start)))))
    (fun t => t.word 0xFE00#16 = 0#16 ∧ t.word 0xFE02#16 = 0x41#16 ∧ t.reg 0 = 0#16 ∧ t.cond = .zro) = true := by
  decide
/-- V-KB3: the host may answer none although a byte is there. -/
theorem test_poll_may_answer_none :
    after (withHost [0x7A#8] [false] (at0 0xA001#16 (memWrite 0x3002#16 0xFE00#16 start)))
    (fun t => t.word 0xFE00#16 = 0#16 ∧ t.reg 0 = 0#16 ∧ t.host.input = [0x7A#8]) = true := by decide
/-- V-KB4: reading KBDR polls nothing and clears nothing. -/
theorem test_kbdr_read_is_plain :
    after (withHost [0x62#8] [true] (at0 0xA001#16 (memWrite 0xFE02#16 0x61#16 (memWrite 0xFE00#16 0x8000#16
      (memWrite 0x3002#16 0xFE02#16 start)))))
    (fun t => t.reg 0 = 0x61#16 ∧ t.word 0xFE00#16 = 0x8000#16 ∧ t.host.input = [0x62#8]) = true := by decide
/-- V-KB7: a store to KBSR is plain. -/
theorem test_kbsr_store_is_plain :
    after (withHost [0x71#8] [true] (at0 0x7040#16 ((start.setReg 0 0x4242#16).setReg 1 0xFE00#16)))
    (fun t => t.word 0xFE00#16 = 0x4242#16 ∧ t.host.input = [0x71#8]) = true := by decide
/-- V-KB9: the pointer read polls; its value is 0x8000. -/
theorem test_ldi_pointer_read_polls :
    after (withHost [0x61#8, 0x62#8] [true, true] (at0 0xA000#16 (start.setPc 0xFDFF#16)))
    (fun t => t.word 0xFE00#16 = 0x8000#16 ∧ t.word 0xFE02#16 = 0x61#16 ∧ t.reg 0 = 0#16 ∧ t.cond = .zro ∧
      t.pc = 0xFE00#16 ∧ t.host.input = [0x62#8]) = true := by decide
/-- V-KB10: a fetch at 0xFE00 that takes a key runs RTI. -/
theorem test_fetch_at_kbsr_key :
    after (withHost [0x6B#8] [true] (at0 0x1021#16 (start.setPc 0xFE00#16)))
    (fun t => t.fault = .badOpcode 0x8000#16 0xFE00#16 ∧ t.pc = 0xFE01#16 ∧ t.word 0xFE02#16 = 0x6B#16) = true := by
  decide
/-- V-KB11: and one that takes none a no-op. -/
theorem test_fetch_at_kbsr_no_key :
    after (withHost [0x6B#8] [false] (at0 0x1021#16 (start.setPc 0xFE00#16)))
    (fun t => t.fault = .none ∧ t.pc = 0xFE01#16 ∧ t.word 0xFE00#16 = 0#16) = true := by decide

/-! ## TRAP, RTI, reserved (section 2.6) -/

/-- V-TR1. -/
theorem test_getc : after (withHost [0x41#8] [] (at0 0xF020#16 (start.setReg 0 0xFFFF#16)))
    (fun t => t.reg 7 = 0x3001#16 ∧ t.reg 0 = 0x41#16 ∧ t.cond = .pos ∧ t.out = [] ∧ t.host.input = []) = true := by
  decide
/-- V-TR3: zero-extended, never NEG. -/
theorem test_getc_never_neg : after (withHost [0xFF#8] [] (at0 0xF020#16 { start with cond := .neg }))
    (fun t => t.reg 0 = 0xFF#16 ∧ t.cond = .pos) = true := by decide
/-- V-TR4. -/
theorem test_getc_blocked : stops (withHost [] [] (at0 0xF020#16 start)) .blockedOnInput = true := by decide
/-- V-TR6. -/
theorem test_out : after (at0 0xF021#16 { start.setReg 0 0x1261#16 with cond := .neg })
    (fun t => t.out = [0x61#8] ∧ t.reg 7 = 0x3001#16 ∧ t.cond = .neg) = true := by decide
/-- V-TR10: 0xFF00 is no terminator. -/
theorem test_puts : after (at0 0xF022#16 (memWrite 0x4001#16 0xFF00#16 (memWrite 0x4000#16 0x141#16
    (start.setReg 0 0x4000#16)))) (fun t => t.out = [0x41#8, 0x00#8] ∧ t.reg 0 = 0x4000#16) = true := by decide
/-- V-TR11: the pointer wraps. -/
theorem test_puts_wraps : after (at0 0xF022#16 (memWrite 0#16 0x42#16 (memWrite 0xFFFF#16 0x41#16
    (start.setReg 0 0xFFFF#16)))) (fun t => t.out = [0x41#8, 0x42#8]) = true := by decide
/-- V-TR13, with a prompt of one byte. -/
theorem test_in : after (withHost [0x78#8] [] (at0 0xF023#16
    { start with params := { start.params with inPrompt := [0x3E#8] } }))
    (fun t => t.out = [0x3E#8, 0x78#8] ∧ t.reg 0 = 0x78#16 ∧ t.cond = .pos ∧ t.reg 7 = 0x3001#16) = true := by decide
/-- V-TR14. -/
theorem test_in_blocked : stops (withHost [] [] (at0 0xF023#16 start)) .blockedOnInput = true := by decide
/-- V-TR16: odd length. -/
theorem test_putsp_odd : after (at0 0xF024#16 (memWrite 0x4001#16 0x21#16 (memWrite 0x4000#16 0x6948#16
    (start.setReg 0 0x4000#16)))) (fun t => t.out = [0x48#8, 0x69#8, 0x21#8]) = true := by decide
/-- V-TR17: a zero low byte is written. -/
theorem test_putsp_zero_low : after (at0 0xF024#16 (memWrite 0x4000#16 0x4100#16 (start.setReg 0 0x4000#16)))
    (fun t => t.out = [0x00#8, 0x41#8]) = true := by decide
/-- V-TR19, with a notice of one byte. -/
theorem test_halt : after (at0 0xF025#16 { start.setPc 0x3002#16 with
      cond := .neg, params := { start.params with haltNotice := [0x21#8] } })
    (fun t => t.running = false ∧ t.out = [0x21#8] ∧ t.reg 7 = 0x3003#16 ∧ t.pc = 0x3003#16 ∧ t.cond = .neg) = true := by
  decide
/-- S9: after HALT no fetch. -/
theorem test_no_step_after_halt : after (at0 0xF025#16 start) (fun t => stops t .notRunning) = true := by decide
/-- V-TR21: policy noop. -/
theorem test_trap_noop : after (at0 0xF000#16 (start.setReg 7 0x1111#16))
    (fun t => t.reg 7 = 0x3001#16 ∧ t.fault = .none ∧ t.pc = 0x3001#16) = true := by decide
/-- V-TR23: policy fatal; then no further step. -/
theorem test_trap_fatal : after (at0 0xF0FF#16
      { start with params := { start.params with unknownTrap := .fatal } })
    (fun t => t.reg 7 = 0x3001#16 ∧ t.fault = .unknownTrap 0xFF#8 0x3000#16 ∧ t.running = true ∧
      stops t .faultRecorded) = true := by decide
/-- V-TR26. -/
theorem test_rti : after (at0 0x8FFF#16 start)
    (fun t => t.fault = .badOpcode 0x8FFF#16 0x3000#16 ∧ t.pc = 0x3001#16 ∧ t.running = true) = true := by decide
/-- V-TR28: the address of the fault wraps back. -/
theorem test_res : after (at0 0xDABC#16 (start.setPc 0xFFFF#16))
    (fun t => t.fault = .badOpcode 0xDABC#16 0xFFFF#16 ∧ t.pc = 0#16) = true := by decide

/-! ## Reset, image, launch (section 2.7) -/

/-- Whether an image is loaded, and then what `f` says of the state. -/
def loads (bytes : List Byte) (f : State → Bool) : Bool :=
  match loadImage bytes State.reset with
  | .ok t => f t
  | .error _ => false

/-- Whether an image is rejected for this reason. -/
def rejects (bytes : List Byte) (e : ImageError) : Bool :=
  match loadImage bytes State.reset with
  | .ok _ => false
  | .error e' => e' = e

/-- V-IMG1. -/
theorem test_image : loads [0x30#8, 0x00#8, 0xE0#8, 0x00#8, 0xF0#8, 0x25#8]
    (fun t => t.word 0x3000#16 = 0xE000#16 ∧ t.word 0x3001#16 = 0xF025#16 ∧ t.pc = 0x3000#16) = true := by decide
/-- V-IMG5: exactly fits. -/
theorem test_image_fits : loads [0xFF#8, 0xFF#8, 0x12#8, 0x34#8] (fun t => t.word 0xFFFF#16 = 0x1234#16) = true := by
  decide
/-- V-IMG2: an empty body. -/
theorem test_image_empty : loads [0x30#8, 0x00#8] (fun t => t.mem = []) = true := by decide
/-- V-IMG3, V-IMG4, V-IMG6. -/
theorem test_image_rejected : rejects [0x30#8] .noOrigin = true ∧
    rejects [0x30#8, 0x00#8, 0xE0#8] .truncatedBody = true ∧
    rejects [0xFF#8, 0xFF#8, 0x12#8, 0x34#8, 0x56#8, 0x78#8] .overflow = true := by decide
/-- V-RS1; no step is enabled before the run starts. -/
theorem test_reset : State.reset.pc = 0x3000#16 ∧ State.reset.reg 7#3 = 0#16 ∧ State.reset.cond = .zro ∧
    stops State.reset .notRunning = true := by decide

/-! ## Memory in canonical form -/

theorem test_write_of_zero_unlists : (memWrite 5#16 0#16 (memWrite 5#16 7#16 start)).mem = [] := by decide
theorem test_writes_commute_as_data :
    (memWrite 5#16 1#16 (memWrite 9#16 2#16 start)).mem = (memWrite 9#16 2#16 (memWrite 5#16 1#16 start)).mem := by
  decide

/-! ## Witnesses: the hypotheses of each statement that has some are met together -/

/-- A state in mid-run about to run `ADD R2, R0, R1`. -/
def aboutToAdd : State := at0 0x1401#16 start

theorem witness_StepRunsDecodedInstruction : aboutToAdd.midRun ∧ WellFormed (.addr 2#3 0#3 1#3) = true ∧
    decode (memRead aboutToAdd.pc aboutToAdd).1 = .addr 2#3 0#3 1#3 := by decide
theorem witness_NoStepOutsideARun : State.reset.running = false ∧ (raise (.badOpcode 0x8000#16 0#16) start).running = true ∧
    (raise (.badOpcode 0x8000#16 0#16) start).fault ≠ .none := by decide
theorem witness_DecodeOfEncodeIsIdentity : WellFormed (.trap 0xFF#8) = true ∧ WellFormed (.jmp 0#3) = true := by decide

/-- A host with one byte and one answer listed. -/
def oneKey (answer : Bool) : HostSide :=
  { input := [0x61#8], ended := true, byteDraws := 0, answers := [answer], answerDraws := 0 }

theorem witness_PollTakesNextByteOrNothing : (pollKey (oneKey true)).1 = some 0x61#8 ∧
    (pollKey (oneKey false)).1 = none ∧ (oneKey true).answers = true :: [] := by decide
theorem witness_MemWriteIsAPlainStore :
    (pollKey (withHost [0x6B#8] [true] start).host).1 = some 0x6B#8 := by decide
theorem witness_SameInstructionIffUsedBitsAgree : decode 0x1401#16 = decode 0x1419#16 ∧ (0x1401#16 : Word) ≠ 0x1419#16 := by decide
theorem witness_BranchTakenWhenMaskMeetsFlag : branchTaken 0b100#3 .neg ∧ branchTaken 0b001#3 .pos ∧
    ¬ branchTaken 0b000#3 start.cond := by unfold branchTaken; decide
theorem witness_LoadIndirectResult : pcRel9 4#9 start ≠ 0xFE00#16 := by decide
theorem witness_StoreIndirectResult : pcRel9 0x1FF#9 start ≠ 0xFE00#16 := by decide
theorem witness_UnknownTrapFollowsPolicy : ((0x1F#8 : Byte).toNat < 0x20 ∨ 0x25 < (0x1F#8 : Byte).toNat) ∧
    ((0x26#8 : Byte).toNat < 0x20 ∨ 0x25 < (0x26#8 : Byte).toNat) ∧ start.params.unknownTrap = .noop ∧
    { start.params with unknownTrap := .fatal }.unknownTrap = .fatal := by decide
theorem witness_ByteReady_listed : ByteReady (oneKey true) 0x61#8 { oneKey true with input := [] } :=
  .inl ⟨[], rfl, rfl⟩
theorem witness_ByteReady_zero : ByteReady { oneKey true with input := [0x00#8] } 0x00#8 { oneKey true with input := [] } :=
  .inl ⟨[], rfl, rfl⟩
theorem witness_ByteReady_free : ByteReady HostSide.unknown (Config.hostByte 0) { HostSide.unknown with byteDraws := 1 } :=
  .inr ⟨rfl, rfl, rfl, rfl⟩
theorem witness_GetcAndInBlockWhenInputEnded : InputEnded { HostSide.unknown with ended := true } := ⟨rfl, rfl⟩

/-- A state whose R0 points at the string "Hi" (S6). -/
def atHi : State := memWrite 0x4001#16 0x69#16 (memWrite 0x4000#16 0x48#16 (start.setReg 0#3 0x4000#16))

theorem witness_PutsWritesOneBytePerWord : (∀ i < 2, atHi.word (atHi.reg 0#3 + BitVec.ofNat 16 i) ≠ 0#16) ∧
    atHi.word (atHi.reg 0#3 + BitVec.ofNat 16 2) = 0#16 := by decide
theorem witness_PutspWritesPackedBytes_empty : (∀ i < 0, start.word (start.reg 0#3 + BitVec.ofNat 16 i) ≠ 0#16) ∧
    start.word (start.reg 0#3 + BitVec.ofNat 16 0) = 0#16 := by decide

/-- A state with no zero word: every cell holds 1. -/
def fullMemory : State := { start with mem := (List.range 65536).map (fun k => (k, 1#16)) }

theorem read_ones (lo n : Nat) (a : Word) (h1 : lo ≤ a.toNat) (h2 : a.toNat < lo + n) :
    Memory.read ((List.range' lo n).map (fun k => (k, 1#16))) a = 1#16 := by
  induction n generalizing lo with
  | zero => omega
  | succ n ih =>
    rw [List.range'_succ, List.map_cons, Memory.read_cons]
    split
    · rfl
    · exact ih (lo + 1) (by omega) (by omega)

theorem witness_StringRoutinesEndIffAZeroWord : (∃ a, start.word a = 0#16) ∧ ∀ a, fullMemory.word a ≠ 0#16 := by
  refine ⟨⟨0#16, by decide⟩, fun a => ?_⟩
  have h : fullMemory.word a = 1#16 := by
    unfold State.word fullMemory
    rw [List.range_eq_range']
    exact read_ones 0 65536 a (Nat.zero_le _) (by have := a.isLt; omega)
  rw [h]
  decide

/-- One step of the witnesses below, in mid-run from a state that meets the invariant. -/
theorem witness_StepKeepsInvariant : State.Inv aboutToAdd ∧ ∃ t, step aboutToAdd = .next t :=
  ⟨by decide, _, rfl⟩
theorem witness_StepKeepsInvariant_faulting : State.Inv (at0 0x8000#16 start) ∧
    ∃ t, step (at0 0x8000#16 start) = .next t ∧ t.fault ≠ .none := ⟨by decide, _, rfl, by decide⟩
theorem witness_EveryLaunchedRunKeepsInvariant :
    ∃ s, launch Config.Params.standard HostSide.unknown [0x30#8, 0x00#8, 0x10#8, 0x21#8] = .ok s ∧
      ∃ t, Host.Core.run Sys2Proof.core 1 s = .next t := ⟨_, rfl, _, rfl⟩
theorem witness_EnabledStepCompletesUnlessStuck : aboutToAdd.midRun ∧ (withHost [] [] (at0 0xF020#16 start)).midRun := by
  decide
theorem witness_OnlyFlagSettersWriteCond : (∃ t, step aboutToAdd = .next t) ∧
    flagSource (fetched aboutToAdd) = some 2#3 ∧ (∃ t, step (at0 0xF021#16 start) = .next t) ∧
    flagSource (fetched (at0 0xF021#16 start)) = none := ⟨⟨_, rfl⟩, by decide, ⟨_, rfl⟩, by decide⟩
/-- The one hypothesis of these four is that a step answers a next state. -/
theorem witness_FaultsComeOnlyFromTheirCauses : ∃ t, step (at0 0xF0FF#16
    { start with params := { start.params with unknownTrap := .fatal } }) = .next t ∧ t.fault ≠ .none :=
  ⟨_, rfl, by decide⟩
theorem witness_PcAdvancesByRule23 : (∃ t, step (at0 0x07FD#16 { start with cond := .pos }) = .next t) ∧
    branchTaken 0b011#3 .pos := ⟨⟨_, rfl⟩, by unfold branchTaken; decide⟩
theorem witness_StepWritesOnlyListedRegisters : (∃ t, step aboutToAdd = .next t) ∧
    writtenRegs (fetched aboutToAdd) = [2#3] := ⟨⟨_, rfl⟩, by decide⟩
theorem witness_InputIsTakenInOrder : ∃ t, step (withHost [0x61#8] [] (at0 0xF020#16 start)) = .next t ∧
    t.host.input = [] := ⟨_, rfl, rfl⟩
theorem witness_OnlyHaltClearsRunning : fetched (at0 0xF025#16 start) = .halt ∧
    ∃ t, step (at0 0xF025#16 start) = .next t ∧ t.running = false := ⟨by decide, _, rfl, rfl⟩
theorem witness_ConsoleOutputOnlyGrows : isPrinting (fetched aboutToAdd) = false ∧ ∃ t, step aboutToAdd = .next t :=
  ⟨by decide, _, rfl⟩
theorem witness_OnlyStoresAndPollsWriteMemory :
    ∃ t, step (at0 0x3003#16 (start.setReg 0#3 0xABCD#16)) = .next t ∧
      t.word 0x3004#16 ≠ (at0 0x3003#16 (start.setReg 0#3 0xABCD#16)).word 0x3004#16 := ⟨_, rfl, by decide⟩
theorem witness_LinkRegisterHoldsReturnAddress : isLinking (fetched (at0 0x4802#16 start)) = true ∧
    ∃ t, step (at0 0x4802#16 start) = .next t := ⟨by decide, _, rfl⟩
theorem witness_KeyboardActsOnlyInsideReads : (∃ t, step aboutToAdd = .next t) ∧ aboutToAdd.pc ≠ 0xFE00#16 ∧
    fetched aboutToAdd = .addr 2#3 0#3 1#3 := ⟨⟨_, rfl⟩, by decide, by decide⟩
theorem witness_StoredWordIsExecutedNext : fetched (at0 0x3000#16 start) = .st 0#3 0#9 ∧
    start.pc + 1#16 ≠ 0xFE00#16 ∧ ∃ t, step (at0 0x3000#16 start) = .next t := ⟨by decide, by decide, _, rfl⟩
theorem witness_FetchAtKeyboardStatus : (withHost [0x6B#8] [true] (start.setPc 0xFE00#16)).midRun ∧
    (start.setPc 0xFE00#16).pc = 0xFE00#16 ∧
    (pollKey (withHost [0x6B#8] [true] (start.setPc 0xFE00#16)).host).1 = some 0x6B#8 ∧
    (pollKey (withHost [0x6B#8] [false] (start.setPc 0xFE00#16)).host).1 = none := by decide
theorem witness_ImageLoadsVerbatimAtOrigin : (0xFFFF#16 : Word).toNat + [0x1234#16].length ≤ 65536 := by decide
theorem witness_LaunchStateIsResetPlusImage : (0x3000#16 : Word).toNat + [0xF025#16].length ≤ 65536 := by decide
theorem witness_ImageErrors : ([0x30#8] : List Byte).length < 2 ∧ 2 ≤ ([0x30#8, 0x00#8, 0xE0#8] : List Byte).length ∧
    ([0x30#8, 0x00#8, 0xE0#8] : List Byte).length % 2 = 1 ∧
    65536 < (0xFFFF#16 : Word).toNat + [0x1234#16, 0x5678#16].length := by decide

end Sys2Proof.Tests
end

section
/-! The bit-vector sign extension of the model is R7's arithmetic. -/

open Sys2Proof Sys2Proof.Machine Sys2Proof.Claims

namespace Sys2Proof.Proofs

/-- R7 at every field width that fits a word. -/
theorem toNat_sext {n : Nat} (hn : n ≤ 16) (v : BitVec n) : (sext v).toNat = signExtended n v := by
  have hv : v.toNat < 2 ^ 16 := v.isLt.trans_le (Nat.pow_le_pow_right (by decide) hn)
  unfold sext signExtended
  rw [BitVec.toNat_signExtend, BitVec.toNat_setWidth, Nat.mod_eq_of_lt hv, BitVec.msb_eq_getLsbD_last]
  split <;> rfl

/-- Settles O10: the four widths are at most 16. -/
theorem signExtensionOfEveryField : Obligations.SignExtensionOfEveryField :=
  ⟨toNat_sext (by decide), toNat_sext (by decide), toNat_sext (by decide), toNat_sext (by decide)⟩

end Sys2Proof.Proofs
end

section
/-! Which steps write the condition register, and what they leave in it (10_state.md rules R26, R27). -/

open Sys2Proof Sys2Proof.Machine Sys2Proof.Claims

namespace Sys2Proof.Proofs

/-- The model's flag of a word is R26's, with the high bit read as a bit. -/
theorem condOf_eq_flagOf (v : Word) : condOf v = flagOf v := by
  unfold condOf flagOf
  rw [BitVec.msb_eq_getLsbD_last]

/-- Writing a result leaves the flag of the destination's new value (R26). -/
theorem cond_writeResult_eq_flagOf_reg (d : RegIdx) (v : Word) (s : State) :
    (writeResult d v s).cond = flagOf ((writeResult d v s).reg d) := by
  rw [cond_writeResult, reg_writeResult_self, condOf_eq_flagOf]

@[simp] theorem cond_indirect (off : BitVec 9) (s : State) : (indirect off s).2.cond = s.cond :=
  cond_afterRead _ s

/-- GETC's body completes only with a byte of the host's, which is its result (R152). -/
theorem routineGetc_next {s t : State} (h : routineGetc s = .next t) :
    ∃ c host, takeByte s.host = some (c, host) ∧ t = writeResult argReg (zext c) { s with host := host } := by
  unfold routineGetc at h
  split at h
  · rename_i c host e
    cases h
    exact ⟨c, host, e, rfl⟩
  · cases h

/-- IN's body completes only with a byte of the host's, which is its echo and its result (R155). -/
theorem routineIn_next {s t : State} (h : routineIn s = .next t) :
    ∃ c host, takeByte s.host = some (c, host) ∧
      t = writeResult argReg (zext c) (emit [c] { emit s.params.inPrompt s with host := host }) := by
  unfold routineIn at h
  split at h
  · rename_i c host e
    cases h
    exact ⟨c, host, e, rfl⟩
  · cases h

/-- A string routine that completes has only written to the console (R154, R156). -/
theorem writeString_next {chars : Word → List Byte} {s t : State} (h : writeString chars s = .next t) :
    ∃ bs, t = emit bs s := by
  obtain ⟨bs, -, e⟩ | ⟨-, e⟩ := writeString_cases chars s <;> rw [e] at h <;> cases h
  exact ⟨bs, rfl⟩

/-- Every flag-setting instruction ends by writing its result to its flag source (R26, R27). -/
theorem exec_ends_in_writeResult {i : Instr} {s t : State} {d : RegIdx} (hd : flagSource i = some d)
    (h : exec i s = .next t) : ∃ v u, t = writeResult d v u := by
  cases i with
  | addr | addi | andr | andi | not | ld | ldi | ldr | lea =>
    cases hd
    cases h
    exact ⟨_, _, rfl⟩
  | getc =>
    cases hd
    obtain ⟨c, host, -, rfl⟩ := routineGetc_next h
    exact ⟨_, _, rfl⟩
  | inp =>
    cases hd
    obtain ⟨c, host, -, rfl⟩ := routineIn_next h
    exact ⟨_, _, rfl⟩
  | br | jmp | ret | jsr | jsrr | st | sti | str | trap | out | puts | putsp | halt | rti | res => cases hd

/-- An instruction without a flag source keeps the condition register (R27). A TRAP term must be one that
no routine's row covers: GETC's and IN's vectors set the flags under either row. -/
theorem exec_keeps_cond {i : Instr} {s t : State} (hi : flagSource i = none)
    (htrap : ∀ v, i = .trap v → routineOf v = none) (h : exec i s = .next t) : t.cond = s.cond := by
  cases i with
  | addr | addi | andr | andi | not | ld | ldi | ldr | lea | getc | inp => cases hi
  | jmp | ret | jsr | jsrr | st | str | out | halt | rti | res => cases h; rfl
  | br =>
    cases h
    split <;> rfl
  | sti =>
    cases h
    rw [cond_memWrite, cond_indirect]
  | puts | putsp =>
    obtain ⟨bs, rfl⟩ := writeString_next h
    rfl
  | trap v =>
    have e := execTrap_of_none (htrap v rfl) s
    cases e.symm.trans h
    split <;> rfl

/-- Settles O46: the fetch keeps `cond`, and a decoded TRAP is never a routine's. -/
theorem onlyFlagSettersWriteCond : Obligations.OnlyFlagSettersWriteCond := by
  intro s t hstep
  obtain ⟨-, hexec⟩ := step_next hstep
  refine ⟨fun d hd => ?_, fun hnone => ?_⟩
  · obtain ⟨v, u, rfl⟩ := exec_ends_in_writeResult hd hexec
    exact cond_writeResult_eq_flagOf_reg d v u
  · calc t.cond = (fetch s).2.cond := exec_keeps_cond hnone (fun _ => routineOf_of_decode_trap) hexec
      _ = s.cond := by rw [fetch_snd, State.cond_setPc, cond_afterRead]

end Sys2Proof.Proofs
end

section
/-! What a step in mid-run is: the execute part on the state the fetch leaves (30_encoding.md rule R80). -/

open Sys2Proof Sys2Proof.Machine Sys2Proof.Claims

namespace Sys2Proof.Proofs

/-- In mid-run a step is enabled, whatever its instruction then answers; `step_next` is the converse for
a next state (R11, R80). -/
theorem step_of_midRun {s : State} (h : s.midRun) : step s = exec (decode (fetch s).1) (fetch s).2 := by
  obtain ⟨hrunning, hfault⟩ := h
  unfold step
  rw [hrunning, hfault]

/-- Settles O3: `fetch` is by definition the MemRead at `pc` and the increment. Well-formedness of the
instruction is not needed. -/
theorem stepRunsDecodedInstruction : Obligations.StepRunsDecodedInstruction := by
  rintro s i hmid - rfl
  exact step_of_midRun hmid

end Sys2Proof.Proofs
end

section
/-! ADD, AND and NOT: each writes the word of its rule to DR, sets the flags by it, and leaves the rest
(40_operate.md rules R110 to R114). -/

open Sys2Proof Sys2Proof.Machine Sys2Proof.Claims

namespace Sys2Proof.Proofs

/-- What writing a result leaves unchanged: all but its destination and the condition register (R26). -/
theorem writeResult_frame (dr : RegIdx) (v : Word) (s : State) :
    SameRegs [dr] s (writeResult dr v s) ∧ SamePc s (writeResult dr v s) ∧ SameMemory s (writeResult dr v s) ∧
      SameConsole s (writeResult dr v s) ∧ SameStatus s (writeResult dr v s) := by
  refine ⟨fun r hr => ?_, rfl, fun _ => rfl, ⟨rfl, rfl⟩, rfl, rfl, rfl⟩
  rw [reg_writeResult, if_neg (mt List.mem_singleton.2 hr)]

/-- An instruction that only writes a result completes: the destination holds a word with whatever
property the result has, the flags are that word's, and the rest is as before. -/
theorem completes_of_exec_eq_writeResult {i : Instr} {s : State} {dr : RegIdx} {v : Word} (P : Word → Prop)
    (hexec : exec i s = .next (writeResult dr v s)) (hv : P v) :
    ∃ t, exec i s = .next t ∧ P (t.reg dr) ∧ t.cond = flagOf (t.reg dr) ∧
      SameRegs [dr] s t ∧ SamePc s t ∧ SameMemory s t ∧ SameConsole s t ∧ SameStatus s t := by
  refine ⟨_, hexec, ?_, cond_writeResult_eq_flagOf_reg dr v s, writeResult_frame dr v s⟩
  rwa [reg_writeResult_self]

/-! ## The result each instruction writes -/

theorem exec_addr (dr sr1 sr2 : RegIdx) (s : State) :
    exec (.addr dr sr1 sr2) s = .next (writeResult dr (s.reg sr1 + s.reg sr2) s) := rfl

theorem exec_addi (dr sr1 : RegIdx) (imm5 : BitVec 5) (s : State) :
    exec (.addi dr sr1 imm5) s = .next (writeResult dr (s.reg sr1 + sext imm5) s) := rfl

theorem exec_andr (dr sr1 sr2 : RegIdx) (s : State) :
    exec (.andr dr sr1 sr2) s = .next (writeResult dr (s.reg sr1 &&& s.reg sr2) s) := rfl

theorem exec_andi (dr sr1 : RegIdx) (imm5 : BitVec 5) (s : State) :
    exec (.andi dr sr1 imm5) s = .next (writeResult dr (s.reg sr1 &&& sext imm5) s) := rfl

theorem exec_not (dr sr : RegIdx) (s : State) :
    exec (.not dr sr) s = .next (writeResult dr (~~~ s.reg sr) s) := rfl

/-! ## What the result is by the rules' own arithmetic -/

/-- A sum with a sign-extended field, in R7's arithmetic. -/
theorem toNat_add_sext {n : Nat} (hn : n ≤ 16) (w : Word) (v : BitVec n) :
    (w + sext v).toNat = (w.toNat + signExtended n v) % 65536 := by
  rw [BitVec.toNat_add, toNat_sext hn]

/-- The bits of a sign-extended field are those of R7's number. -/
theorem getLsbD_sext {n : Nat} (hn : n ≤ 16) (v : BitVec n) (k : Nat) :
    (sext v).getLsbD k = (signExtended n v).testBit k := by
  rw [← BitVec.testBit_toNat, toNat_sext hn]

/-- Settles O15: a sum of two words wraps at 65536. -/
theorem addRegisterResult : Obligations.AddRegisterResult := fun s dr sr1 sr2 =>
  completes_of_exec_eq_writeResult (fun w => w.toNat = ((s.reg sr1).toNat + (s.reg sr2).toNat) % 65536)
    (exec_addr dr sr1 sr2 s) (BitVec.toNat_add _ _)

/-- Settles O16: as O15, the second summand being the sign-extended immediate. -/
theorem addImmediateResult : Obligations.AddImmediateResult := fun s dr sr1 imm5 =>
  completes_of_exec_eq_writeResult (fun w => w.toNat = ((s.reg sr1).toNat + signExtended 5 imm5) % 65536)
    (exec_addi dr sr1 imm5 s) (toNat_add_sext (by decide) _ _)

/-- Settles O17: AND acts on each bit alone. -/
theorem andRegisterResult : Obligations.AndRegisterResult := fun s dr sr1 sr2 =>
  completes_of_exec_eq_writeResult
    (fun w => ∀ n < 16, w.getLsbD n = ((s.reg sr1).getLsbD n && (s.reg sr2).getLsbD n))
    (exec_andr dr sr1 sr2 s) (fun _ _ => BitVec.getLsbD_and)

/-- Settles O18: as O17, the second operand being the sign-extended immediate. -/
theorem andImmediateResult : Obligations.AndImmediateResult := fun s dr sr1 imm5 =>
  completes_of_exec_eq_writeResult
    (fun w => ∀ n < 16, w.getLsbD n = ((s.reg sr1).getLsbD n && (signExtended 5 imm5).testBit n))
    (exec_andi dr sr1 imm5 s) (fun n _ => by rw [BitVec.getLsbD_and, getLsbD_sext (by decide)])

/-- Settles O19: the complement of a word is its distance from 0xFFFF. -/
theorem notResult : Obligations.NotResult := fun s dr sr =>
  completes_of_exec_eq_writeResult (fun w => w.toNat = 65535 - (s.reg sr).toNat)
    (exec_not dr sr s) BitVec.toNat_not

end Sys2Proof.Proofs
end

section
/-! JMP, RET, JSR and JSRR: each sets `pc`, JSR and JSRR after the link write, and leaves the rest
(41_control.md rules R121 to R124). -/

open Sys2Proof Sys2Proof.Machine Sys2Proof.Claims

namespace Sys2Proof.Proofs

/-- What a jump leaves unchanged: all but `pc` (R22). -/
theorem setPc_frame (target : Word) (s : State) :
    SameRegs [] s (s.setPc target) ∧ SameCond s (s.setPc target) ∧ SameMemory s (s.setPc target) ∧
      SameConsole s (s.setPc target) ∧ SameStatus s (s.setPc target) :=
  ⟨fun _ _ => rfl, rfl, fun _ => rfl, ⟨rfl, rfl⟩, rfl, rfl, rfl⟩

/-- What a linking jump leaves unchanged: all but `pc` and the link register (R21, R22). -/
theorem setPc_link_frame (target : Word) (s : State) :
    SameRegs [linkReg] s ((link s).setPc target) ∧ SameCond s ((link s).setPc target) ∧
      SameMemory s ((link s).setPc target) ∧ SameConsole s ((link s).setPc target) ∧
      SameStatus s ((link s).setPc target) := by
  refine ⟨fun r hr => ?_, rfl, fun _ => rfl, ⟨rfl, rfl⟩, rfl, rfl, rfl⟩
  rw [State.reg_setPc, reg_link, if_neg (mt List.mem_singleton.2 hr)]

/-- A linking jump holds in the link register the `pc` it left (R21). -/
theorem reg_setPc_link_linkReg (target : Word) (s : State) : ((link s).setPc target).reg linkReg = s.pc := by
  rw [State.reg_setPc, reg_link_self]

/-! ## Where each instruction goes -/

theorem exec_jmp (baseR : RegIdx) (s : State) : exec (.jmp baseR) s = .next (s.setPc (s.reg baseR)) := rfl

/-- RET is JMP with the link register as its base (R122). -/
theorem exec_ret (s : State) : exec .ret s = exec (.jmp linkReg) s := rfl

/-- The link write keeps `pc`, so JSR's target is taken from the `pc` it links. -/
theorem exec_jsr (off : BitVec 11) (s : State) :
    exec (.jsr off) s = .next ((link s).setPc (s.pc + sext off)) := rfl

/-- JSRR's base is read after the link write. -/
theorem exec_jsrr (baseR : RegIdx) (s : State) :
    exec (.jsrr baseR) s = .next ((link s).setPc ((link s).reg baseR)) := rfl

/-- Settles O21: JMP only sets `pc`. -/
theorem jumpGoesToBaseRegister : Obligations.JumpGoesToBaseRegister := fun s baseR =>
  ⟨_, exec_jmp baseR s, State.pc_setPc s _, setPc_frame _ s⟩

/-- Settles O22: O21 at the link register. -/
theorem returnGoesToLinkRegister : Obligations.ReturnGoesToLinkRegister := fun s =>
  ⟨exec_ret s, jumpGoesToBaseRegister s linkReg⟩

/-- Settles O23: the target is the linked `pc` plus a sign-extended field, in R7's arithmetic. -/
theorem jsrLinksAndBranches : Obligations.JsrLinksAndBranches := fun s off =>
  ⟨_, exec_jsr off s, reg_setPc_link_linkReg _ s, toNat_add_sext (by decide) s.pc off, setPc_link_frame _ s⟩

/-- Settles O24: after the link write R7 reads as the incremented `pc`, any other base as before. -/
theorem jsrrLinksBeforeReadingBase : Obligations.JsrrLinksBeforeReadingBase := by
  intro s baseR
  refine ⟨_, exec_jsrr baseR s, reg_setPc_link_linkReg _ s, fun hne => ?_, ?_, setPc_link_frame _ s⟩
  · exact (reg_link s baseR).trans (if_neg hne)
  · rintro rfl
    exact reg_link_self s

end Sys2Proof.Proofs
end

section
/-! LEA, ST and STR: LEA writes its address to DR as a result, ST and STR are one store at their address,
and each leaves the rest (42_load_store.md rules R133, R134, R136). -/

open Sys2Proof Sys2Proof.Machine Sys2Proof.Claims

namespace Sys2Proof.Proofs

/-- What a store leaves unchanged: all but the word at its address (R54). -/
theorem memWrite_frame (a v : Word) (s : State) :
    SameMemoryBut a s (memWrite a v s) ∧ SameRegs [] s (memWrite a v s) ∧ SamePc s (memWrite a v s) ∧
      SameCond s (memWrite a v s) ∧ SameConsole s (memWrite a v s) ∧ SameStatus s (memWrite a v s) := by
  refine ⟨fun b hb => ?_, fun _ _ => rfl, rfl, rfl, ⟨rfl, rfl⟩, rfl, rfl, rfl⟩
  rw [word_memWrite, if_neg hb]

/-! ## What each instruction writes -/

/-- LEA's result is the address itself: no read of memory. -/
theorem exec_lea (dr : RegIdx) (off : BitVec 9) (s : State) :
    exec (.lea dr off) s = .next (writeResult dr (s.pc + sext off) s) := rfl

theorem exec_st (sr : RegIdx) (off : BitVec 9) (s : State) :
    exec (.st sr off) s = .next (memWrite (pcRel9 off s) (s.reg sr) s) := rfl

theorem exec_str (sr baseR : RegIdx) (off : BitVec 6) (s : State) :
    exec (.str sr baseR off) s = .next (memWrite (basePlus baseR off s) (s.reg sr) s) := rfl

/-- Settles O28: the result is `pc` plus a sign-extended field, in R7's arithmetic. -/
theorem leaLoadsTheAddress : Obligations.LeaLoadsTheAddress := fun s dr off =>
  completes_of_exec_eq_writeResult (fun w => w.toNat = (s.pc.toNat + signExtended 9 off) % 65536)
    (exec_lea dr off s) (toNat_add_sext (by decide) s.pc off)

/-- Settles O29: ST is one store at its `pc`-relative address. -/
theorem storePcRelativeResult : Obligations.StorePcRelativeResult := fun s sr off =>
  ⟨_, exec_st sr off s, word_memWrite_self _ _ s, memWrite_frame _ _ s⟩

/-- Settles O31: STR is one store at its base-plus-offset address. -/
theorem storeBasePlusOffsetResult : Obligations.StoreBasePlusOffsetResult := fun s sr baseR off =>
  ⟨_, exec_str sr baseR off s, word_memWrite_self _ _ s, memWrite_frame _ _ s⟩

end Sys2Proof.Proofs
end

section
/-! The encoding: decoding undoes encoding, encoding undoes decoding outside the ignored bits, and the opcode
table has one primary row for every word (30_encoding.md rules R82 to R99). -/

open Sys2Proof Sys2Proof.Machine Sys2Proof.Claims

namespace Sys2Proof.Proofs

/-! ## Fields of an instruction's word -/

/-- `extract_append_upper` where the sum of the two widths is written as a numeral, as it is in operand bits. -/
@[simp] theorem extract_numeral_append_upper {n m : Nat} (a : BitVec n) (b : BitVec m) {lo len : Nat} (h : m ≤ lo) :
    @BitVec.extractLsb' (no_index (n + m)) lo len (@HAppend.hAppend _ _ (no_index (BitVec (n + m))) _ a b) =
      a.extractLsb' (lo - m) len :=
  extract_append_upper a b h

/-- `extract_append_lower` where the sum of the two widths is written as a numeral. -/
@[simp] theorem extract_numeral_append_lower {n m : Nat} (a : BitVec n) (b : BitVec m) {lo len : Nat}
    (h : lo + len ≤ m) :
    @BitVec.extractLsb' (no_index (n + m)) lo len (@HAppend.hAppend _ _ (no_index (BitVec (n + m))) _ a b) =
      b.extractLsb' lo len :=
  extract_append_lower a b h

theorem opcodeOf_field_encode (i : Instr) : opcodeOf (field (encode i) 12 4) = i.opcode :=
  Sys2Proof.Laws.OpcodeField.of_encode i

/-- A field below the opcode of an instruction's word is a field of its operand bits (R81). -/
@[simp] theorem field_encode (i : Instr) {lo len : Nat} (h : lo + len ≤ 12) :
    field (encode i) lo len = i.operandBits.extractLsb' lo len :=
  field_operand _ _ h

/-- Settles O6: each field the decoder reads from the word of an instruction is the operand the encoder put
there. Well-formedness is what JMP and TRAP need not to decode as RET or as a routine's row. -/
theorem decodeOfEncodeIsIdentity : Obligations.DecodeOfEncodeIsIdentity := by
  intro i hwf
  unfold decode
  rw [opcodeOf_field_encode]
  cases i with
  | jmp b =>
    have hb : b ≠ 7#3 := by simpa [WellFormed, jmpWellFormed] using hwf
    simp [Instr.opcode, Instr.operandBits, decodeJmp, hb]
  | trap v =>
    have hv : routineOf v = none := by simpa [WellFormed, trapWellFormed] using hwf
    simp [Instr.opcode, Instr.operandBits, decodeTrap, hv]
  | ret | getc | out | puts | inp | putsp | halt => decide
  | addr | addi | andr | andi | not | br | jsr | jsrr | ld | ldi | ldr | lea | st | sti | str | rti | res =>
    simp [Instr.opcode, Instr.operandBits]

/-! ## The fields an instruction uses -/

/-- The fields below the opcode that R99 extracts for an instruction, each as its lowest bit and its length. -/
def operandFields : Instr → List (Nat × Nat)
  | .addr _ _ _ | .andr _ _ _ => [(9, 3), (6, 3), (5, 1), (0, 3)]
  | .addi _ _ _ | .andi _ _ _ => [(9, 3), (6, 3), (5, 1), (0, 5)]
  | .not _ _ => [(9, 3), (6, 3)]
  | .jmp _ | .ret => [(6, 3)]
  | .jsr _ => [(11, 1), (0, 11)]
  | .jsrr _ => [(11, 1), (6, 3)]
  | .br _ _ | .ld _ _ | .ldi _ _ | .lea _ _ | .st _ _ | .sti _ _ => [(9, 3), (0, 9)]
  | .ldr _ _ _ | .str _ _ _ => [(9, 3), (6, 3), (0, 6)]
  | .trap _ | .getc | .out | .puts | .inp | .putsp | .halt => [(0, 8)]
  | .rti _ | .res _ => [(0, 12)]

/-- The opcode field and the operand fields: every bit a rule extracts. -/
def usedFields (i : Instr) : List (Nat × Nat) := (12, 4) :: operandFields i

theorem operandFields_below_opcode (i : Instr) : ∀ f ∈ operandFields i, f.1 + f.2 ≤ 12 := by
  cases i <;> (simp only [operandFields]; decide)

/-- A bit is not ignored exactly when it lies in a field in use (R94). -/
theorem ignoredBits_getLsbD_eq_false_iff (i : Instr) (k : Fin 16) :
    (ignoredBits i).getLsbD k = false ↔ ∃ f ∈ usedFields i, f.1 ≤ k.val ∧ k.val < f.1 + f.2 := by
  revert k
  cases i <;> (simp only [ignoredBits, usedFields, operandFields]; decide)

/-- A field of two words is the same exactly when the words agree in its bits. -/
theorem field_eq_field_iff (u w : Word) (lo len : Nat) :
    field u lo len = field w lo len ↔ ∀ k : Fin 16, lo ≤ k.val → k.val < lo + len → u.getLsbD k = w.getLsbD k := by
  unfold field
  constructor
  · intro h k h1 h2
    have hk := congrArg (BitVec.getLsbD · (k - lo)) h
    simpa [BitVec.getLsbD_extractLsb', show k - lo < len by omega, show lo + (k - lo) = k.val by omega] using hk
  · intro h
    ext i hi
    rw [BitVec.getElem_extractLsb', BitVec.getElem_extractLsb']
    by_cases hlt : lo + i < 16
    · exact h ⟨lo + i, hlt⟩ (Nat.le_add_right lo i) (Nat.add_lt_add_left hi lo)
    · rw [BitVec.getLsbD_of_ge u _ (by omega), BitVec.getLsbD_of_ge w _ (by omega)]

/-- Words agree outside a mask exactly when they agree in each bit the mask leaves. -/
theorem or_eq_or_iff (u w m : Word) :
    u ||| m = w ||| m ↔ ∀ k : Fin 16, m.getLsbD k = false → u.getLsbD k = w.getLsbD k := by
  rw [BitVec.eq_of_getLsbD_eq_iff, Fin.forall_iff]
  refine forall₂_congr fun k _ => ?_
  cases hm : m.getLsbD k <;> simp [BitVec.getLsbD_or, hm]

/-- Words agree under a mask exactly when they agree in each bit the mask has. -/
theorem and_eq_and_iff (u w m : Word) :
    u &&& m = w &&& m ↔ ∀ k : Fin 16, m.getLsbD k = true → u.getLsbD k = w.getLsbD k := by
  rw [BitVec.eq_of_getLsbD_eq_iff, Fin.forall_iff]
  refine forall₂_congr fun k _ => ?_
  cases hm : m.getLsbD k <;> simp [BitVec.getLsbD_and, hm]

/-- Words agree outside the ignored bits exactly when they agree in every field in use (R94). -/
theorem or_ignoredBits_eq_iff (i : Instr) (u w : Word) :
    u ||| ignoredBits i = w ||| ignoredBits i ↔ ∀ f ∈ usedFields i, field u f.1 f.2 = field w f.1 f.2 := by
  simp only [or_eq_or_iff, field_eq_field_iff, ignoredBits_getLsbD_eq_false_iff]
  exact ⟨fun h f hf k h1 h2 => h k ⟨f, hf, h1, h2⟩, fun h k ⟨f, hf, h1, h2⟩ => h f hf k h1 h2⟩

/-! ## What the decoder reads -/

theorem trapVector_of_routineOf {v : Byte} {r : TrapRoutine} (h : routineOf v = some r) :
    Config.trapVector r = v := by
  simpa using List.find?_some h

/-- A TRAP word's row, a routine's or the plain one: its opcode, the one field in use and what stands there. -/
theorem decodeTrap_row (v : Byte) :
    (decodeTrap v).opcode = .trap ∧ operandFields (decodeTrap v) = [(0, 8)] ∧
      (decodeTrap v).operandBits.extractLsb' 0 8 = v ∧ WellFormed (decodeTrap v) = true := by
  unfold decodeTrap
  cases h : routineOf v with
  | some r =>
    rw [← trapVector_of_routineOf h]
    cases r <;> decide
  | none => simp [Instr.opcode, operandFields, Instr.operandBits, WellFormed, trapWellFormed, h]

/-- A JMP word's row, RET's or the plain one: its opcode, the one operand field in use and what stands there. -/
theorem decodeJmp_row (b : RegIdx) :
    (decodeJmp b).opcode = .jmp ∧ operandFields (decodeJmp b) = [(6, 3)] ∧
      (decodeJmp b).operandBits.extractLsb' 6 3 = b ∧ WellFormed (decodeJmp b) = true := by
  unfold decodeJmp
  by_cases hb : b = 7#3
  · rw [if_pos hb, hb]
    decide
  · simp [Instr.opcode, operandFields, Instr.operandBits, WellFormed, jmpWellFormed, hb]

theorem opcode_decode (w : Word) : (decode w).opcode = opcodeOf (field w 12 4) := by
  unfold decode
  cases opcodeOf (field w 12 4) with
  | trap =>
    obtain ⟨hop, -⟩ := decodeTrap_row (field w 0 8)
    exact hop
  | jmp =>
    obtain ⟨hop, -⟩ := decodeJmp_row (field w 6 3)
    exact hop
  | add | and | jsr => dsimp only; split <;> rfl
  | br | ld | st | ldr | str | rti | not | ldi | sti | res | lea => rfl

theorem wellFormed_decode (w : Word) : WellFormed (decode w) = true := by
  unfold decode
  cases opcodeOf (field w 12 4) with
  | trap =>
    obtain ⟨-, -, -, hwf⟩ := decodeTrap_row (field w 0 8)
    exact hwf
  | jmp =>
    obtain ⟨-, -, -, hwf⟩ := decodeJmp_row (field w 6 3)
    exact hwf
  | add | and | jsr => dsimp only; split <;> rfl
  | br | ld | st | ldr | str | rti | not | ldi | sti | res | lea => rfl

/-- Each operand field of a decoded instruction holds what the word holds there. -/
theorem operandField_decode (w : Word) :
    ∀ f ∈ operandFields (decode w), (decode w).operandBits.extractLsb' f.1 f.2 = field w f.1 f.2 := by
  unfold decode
  cases opcodeOf (field w 12 4) with
  | trap =>
    obtain ⟨-, hfields, hvector, -⟩ := decodeTrap_row (field w 0 8)
    simp [hfields, hvector]
  | jmp =>
    obtain ⟨-, hfields, hbase, -⟩ := decodeJmp_row (field w 6 3)
    simp [hfields, hbase]
  | add | and =>
    obtain hmode | hmode := BitVec.eq_zero_or_eq_one (field w 5 1) <;>
      simp [hmode, operandFields, Instr.operandBits]
  | jsr =>
    obtain hmode | hmode := BitVec.eq_zero_or_eq_one (field w 11 1) <;>
      simp [hmode, operandFields, Instr.operandBits]
  | br | ld | st | ldr | str | rti | not | ldi | sti | res | lea => simp [operandFields, Instr.operandBits]

/-- The decoder reads no bit outside the fields its instruction uses. -/
theorem decode_congr {w w' : Word} (h : ∀ f ∈ usedFields (decode w), field w' f.1 f.2 = field w f.1 f.2) :
    decode w' = decode w := by
  obtain ⟨hop, hfields⟩ := List.forall_mem_cons.1 h
  revert hfields
  unfold decode
  rw [show field w' 12 4 = field w 12 4 from hop]
  cases opcodeOf (field w 12 4) with
  | trap =>
    obtain ⟨-, hvector, -⟩ := decodeTrap_row (field w 0 8)
    simpa [hvector] using congrArg decodeTrap
  | jmp =>
    obtain ⟨-, hbase, -⟩ := decodeJmp_row (field w 6 3)
    simpa [hbase] using congrArg decodeJmp
  | add | and =>
    obtain hmode | hmode := BitVec.eq_zero_or_eq_one (field w 5 1) <;>
      simp +contextual [hmode, operandFields]
  | jsr =>
    obtain hmode | hmode := BitVec.eq_zero_or_eq_one (field w 11 1) <;>
      simp +contextual [hmode, operandFields]
  | br | ld | st | ldr | str | rti | not | ldi | sti | res | lea => simp +contextual [operandFields]

/-- The word of the decoded instruction has in every field in use what the word has there. -/
theorem usedField_encode_decode (w : Word) :
    ∀ f ∈ usedFields (decode w), field (encode (decode w)) f.1 f.2 = field w f.1 f.2 := by
  refine List.forall_mem_cons.2 ⟨?_, fun f hf => ?_⟩
  · calc field (encode (decode w)) 12 4 = Config.opcodeMap (decode w).opcode := field_opcode _ _
      _ = field w 12 4 := by rw [opcode_decode, opcodeMap_opcodeOf]
  · rw [field_encode _ (operandFields_below_opcode _ f hf), operandField_decode w f hf]

/-- Settles O7: agreement in the fields in use is agreement outside the ignored bits. -/
theorem encodeOfDecodeKeepsUsedBits : Obligations.EncodeOfDecodeKeepsUsedBits := fun w =>
  ⟨wellFormed_decode w, (or_ignoredBits_eq_iff _ _ _).2 (usedField_encode_decode w)⟩

/-- Settles O8: equal instructions by O7 applied to both words, agreeing words by `decode_congr`. -/
theorem sameInstructionIffUsedBitsAgree : Obligations.SameInstructionIffUsedBitsAgree := by
  refine fun w w' => ⟨fun h => ?_, fun h => (decode_congr ((or_ignoredBits_eq_iff _ _ _).1 h.symm)).symm⟩
  rw [← (encodeOfDecodeKeepsUsedBits w).2, h, (encodeOfDecodeKeepsUsedBits w').2]

/-! ## The opcode table -/

/-- Two rows conflict when their masks and values leave no word that matches both. -/
def rowsConflict (r q : Word × Word) : Prop := r.2 &&& q.1 ≠ q.2 &&& r.1

/-- A word that matches two rows does not let them conflict. -/
theorem not_rowsConflict {w : Word} {r q : Word × Word} (hr : w &&& r.1 = r.2) (hq : w &&& q.1 = q.2) :
    ¬ rowsConflict r q := by
  rw [rowsConflict, ← hr, ← hq, BitVec.and_assoc, BitVec.and_assoc, BitVec.and_comm r.1]
  exact not_not_intro rfl

/-- Of rows that conflict pairwise a word matches no other than one it matches. -/
theorem filter_rows_eq_singleton {w : Word} {r : Word × Word} {rows : List (Word × Word)}
    (hrows : rows.Pairwise rowsConflict) (hmem : r ∈ rows) (hr : w &&& r.1 = r.2) :
    rows.filter (fun q => w &&& q.1 = q.2) = [r] := by
  induction hrows with
  | nil => cases hmem
  | @cons q rows hq hrows ih =>
    obtain rfl | hmem := List.mem_cons.1 hmem
    · rw [List.filter_cons_of_pos (by simpa using hr), List.filter_eq_nil_iff.2]
      intro q' hq' hmatch
      exact not_rowsConflict hr (by simpa using hmatch) (hq q' hq')
    · rw [List.filter_cons_of_neg, ih hmem]
      intro hmatch
      exact not_rowsConflict (by simpa using hmatch) hr (hq r hmem)

theorem primaryRows_conflict : primaryRows.Pairwise rowsConflict := by
  unfold rowsConflict
  decide

theorem primaryRow_mem (i : Instr) : primaryRow i ∈ primaryRows := by
  cases i <;> (simp only [primaryRow]; decide)

/-- The fields a primary row fixes: the opcode and, where two rows share it, the mode bit (R82, R93). -/
def rowFields : Instr → List (Nat × Nat)
  | .addr _ _ _ | .addi _ _ _ | .andr _ _ _ | .andi _ _ _ => [(12, 4), (5, 1)]
  | .jsr _ | .jsrr _ => [(12, 4), (11, 1)]
  | .not _ _ | .br _ _ | .jmp _ | .ret | .ld _ _ | .ldi _ _ | .ldr _ _ _ | .lea _ _ => [(12, 4)]
  | .st _ _ | .sti _ _ | .str _ _ _ | .rti _ | .res _ => [(12, 4)]
  | .trap _ | .getc | .out | .puts | .inp | .putsp | .halt => [(12, 4)]

theorem rowFields_subset_usedFields (i : Instr) : rowFields i ⊆ usedFields i := by
  cases i <;> simp [rowFields, usedFields, operandFields]

/-- The mask of a primary row is the bits of the fields it fixes. -/
theorem primaryRow_mask_getLsbD_iff (i : Instr) (k : Fin 16) :
    (primaryRow i).1.getLsbD k = true ↔ ∃ f ∈ rowFields i, f.1 ≤ k.val ∧ k.val < f.1 + f.2 := by
  revert k
  cases i <;> (simp only [primaryRow, rowFields]; decide)

/-- A word matches a primary row exactly when it has the row's value in every field the row fixes. -/
theorem matches_primaryRow_iff (i : Instr) (w : Word) :
    w &&& (primaryRow i).1 = (primaryRow i).2 ↔
      ∀ f ∈ rowFields i, field w f.1 f.2 = field (primaryRow i).2 f.1 f.2 := by
  have hvalue : (primaryRow i).2 &&& (primaryRow i).1 = (primaryRow i).2 := by
    cases i <;> (simp only [primaryRow]; decide)
  calc w &&& (primaryRow i).1 = (primaryRow i).2
      ↔ w &&& (primaryRow i).1 = (primaryRow i).2 &&& (primaryRow i).1 := by rw [hvalue]
    _ ↔ ∀ f ∈ rowFields i, field w f.1 f.2 = field (primaryRow i).2 f.1 f.2 := by
      simp only [and_eq_and_iff, field_eq_field_iff, primaryRow_mask_getLsbD_iff]
      exact ⟨fun h f hf k h1 h2 => h k ⟨f, hf, h1, h2⟩, fun h k ⟨f, hf, h1, h2⟩ => h f hf k h1 h2⟩

/-- The value of an instruction's primary row is the opcode and the mode bit of the instruction's word. -/
theorem rowField_encode (i : Instr) :
    ∀ f ∈ rowFields i, field (encode i) f.1 f.2 = field (primaryRow i).2 f.1 f.2 := by
  cases i <;> simp [rowFields, encode, Instr.opcode, Instr.operandBits, primaryRow, Config.opcodeMap, field]

theorem decode_matches_primaryRow (w : Word) : w &&& (primaryRow (decode w)).1 = (primaryRow (decode w)).2 :=
  (matches_primaryRow_iff _ w).2 fun f hf => by
    rw [← rowField_encode _ f hf, usedField_encode_decode w f (rowFields_subset_usedFields _ hf)]

/-! ### The rows with `alias_of` -/

/-- The mask of a row of `aliasRows` is all but the ignored bits of its instruction, and its value is the
instruction's word, whose ignored bits are 0. -/
theorem aliasRow_eq_encode : ∀ r ∈ aliasRows,
    r.1 = (~~~ ignoredBits r.2, encode r.2) ∧ encode r.2 &&& ~~~ ignoredBits r.2 = encode r.2 ∧
      WellFormed r.2 = true := by
  decide

/-- Words agree under the complement of a mask exactly when they agree outside the mask. -/
theorem and_not_eq_iff (u w m : Word) : u &&& ~~~ m = w &&& ~~~ m ↔ u ||| m = w ||| m := by
  rw [and_eq_and_iff, or_eq_or_iff]
  exact forall_congr' fun k => by simp

/-- Settles O9: the primary rows conflict pairwise and the decoded instruction's row matches; to match a
row of `aliasRows` is to agree with its instruction's word outside the ignored bits, which is O8. -/
theorem opcodeTablePartitionsTheWords : Obligations.OpcodeTablePartitionsTheWords := by
  refine fun w => ⟨filter_rows_eq_singleton primaryRows_conflict (primaryRow_mem _) (decode_matches_primaryRow w),
    fun r hr => ?_⟩
  obtain ⟨hrow, hcanonical, hwf⟩ := aliasRow_eq_encode r hr
  have hdecode : decode (encode r.2) = r.2 := decodeOfEncodeIsIdentity r.2 hwf
  have hsame := sameInstructionIffUsedBitsAgree (encode r.2) w
  rw [hdecode] at hsame
  calc w &&& r.1.1 = r.1.2
      ↔ encode r.2 &&& ~~~ ignoredBits r.2 = w &&& ~~~ ignoredBits r.2 := by rw [hrow, hcanonical, eq_comm]
    _ ↔ encode r.2 ||| ignoredBits r.2 = w ||| ignoredBits r.2 := and_not_eq_iff _ _ _
    _ ↔ decode w = r.2 := by rw [← hsame, eq_comm]

/-- Settles O5: each of the fifteen words by running the decoder. -/
theorem specExampleWordsDecode : Obligations.SpecExampleWordsDecode := by
  unfold Obligations.SpecExampleWordsDecode
  decide

end Sys2Proof.Proofs
end

section
/-! Reset, the primitives and the memory read operation: the values after reset, the address sums, a store, a
poll and a MemRead, each with its frame (10_state.md rule R35, 20_memory.md rules R51 to R59). -/

open Sys2Proof Sys2Proof.Machine Sys2Proof.Claims

namespace Sys2Proof.Proofs

/-! ## Reset and the enabling of a step -/

@[simp] theorem reg_resetWith (p : Config.Params) (h : HostSide) (r : RegIdx) :
    (State.resetWith p h).reg r = 0x0000#16 := by
  simp [State.resetWith, State.reg]

/-- Settles O1: registers are the one field that is not read off `resetWith` as it stands. -/
theorem resetLeavesStatedValues : Obligations.ResetLeavesStatedValues :=
  ⟨fun p h => ⟨reg_resetWith p h, rfl, rfl, fun _ => rfl, rfl, rfl, rfl⟩, rfl, rfl⟩

/-- The empty memory is canonical, and there is no fault to be precise about. -/
theorem inv_resetWith (p : Config.Params) (h : HostSide) : (State.resetWith p h).Inv := ⟨rfl, rfl⟩

/-- Settles O2: `State.reset` is one of these resets. -/
theorem invariantHoldsAfterReset : Obligations.InvariantHoldsAfterReset :=
  ⟨inv_resetWith, inv_resetWith _ _⟩

/-- Settles O4: the two conditions of the run loop, in the order `step` looks at them. -/
theorem noStepOutsideARun : Obligations.NoStepOutsideARun := by
  refine fun s => ⟨fun hstopped => ?_, fun hrunning hfault => ?_⟩
  · unfold step
    rw [hstopped]
  · unfold step
    rw [hrunning]
    cases hf : s.fault with
    | none => exact absurd hf hfault
    | badOpcode | unknownTrap => rfl

/-- Settles O11: each address is a sum with a sign-extended field. -/
theorem addressFormsWrap : Obligations.AddressFormsWrap := fun s =>
  ⟨toNat_add_sext (by decide) s.pc, toNat_add_sext (by decide) s.pc, fun b => toNat_add_sext (by decide) (s.reg b)⟩

/-! ## Bytes in R7's and R57's arithmetic -/

theorem zext_eq_ofNat (k : Byte) : zext k = BitVec.ofNat 16 k.toNat := (BitVec.ofNat_toNat 16 k).symm

/-! ## Polls and MemRead -/

/-- A poll has the effect R52 gives it. -/
theorem pollEffect_kbsrPoll (s : State) : PollEffect s (kbsrPoll s) := by
  unfold PollEffect
  rcases e : pollKey s.host with ⟨_ | k, h⟩
  · simp +contextual [kbsrPoll_noKey e, word_memWrite, kbsrAddr]
  · simp +contextual [kbsrPoll_key e, word_memWrite, kbsrAddr, kbdrAddr, kbsrReady, zext_eq_ofNat]

/-- MemRead has the effect R51 gives it, and answers the word it leaves at its address. -/
theorem memReadEffect_memRead (a : Word) (s : State) : MemReadEffect a (memRead a s).1 s (memRead a s).2 := by
  unfold MemReadEffect
  rw [memRead_fst, memRead_snd]
  by_cases ha : a = 0xFE00#16
  · subst ha
    exact ⟨pollEffect_kbsrPoll s, rfl⟩
  · rw [if_neg ha, afterRead_of_ne ha]
    exact ⟨fun _ => rfl, rfl, rfl⟩

/-- What MemRead leaves unchanged at every address. -/
theorem afterRead_same (a : Word) (s : State) :
    SameRegs [] s (afterRead a s) ∧ SamePc s (afterRead a s) ∧ SameCond s (afterRead a s) ∧
      (afterRead a s).out = s.out ∧ SameStatus s (afterRead a s) :=
  ⟨fun _ _ => reg_afterRead a s _, pc_afterRead a s, cond_afterRead a s, out_afterRead a s,
    running_afterRead a s, fault_afterRead a s, params_afterRead a s⟩

/-- Settles O13: the effect and the frame of MemRead. -/
theorem memReadPollsOnlyKeyboardStatus : Obligations.MemReadPollsOnlyKeyboardStatus := fun s a =>
  ⟨memReadEffect_memRead a s, afterRead_same a s⟩

/-- A read of KBSR overwrites whatever was stored there before it (D7). -/
theorem word_afterRead_memWrite_kbsr (s : State) (v b : Word) :
    (afterRead kbsrAddr (memWrite kbsrAddr v s)).word b = (kbsrPoll s).word b := by
  rw [afterRead_kbsr]
  rcases e : pollKey s.host with ⟨_ | k, h⟩
  · rw [kbsrPoll_noKey e, kbsrPoll_noKey (show pollKey (memWrite kbsrAddr v s).host = _ from e)]
    simp only [word_memWrite, State.word_withHost]
    grind
  · rw [kbsrPoll_key e, kbsrPoll_key (show pollKey (memWrite kbsrAddr v s).host = _ from e)]
    simp only [word_memWrite, State.word_withHost]
    grind

/-- Settles O12: a write is plain, and the poll of the next read of KBSR rewrites the cells it writes. -/
theorem memWriteIsAPlainStore : Obligations.MemWriteIsAPlainStore := by
  have hread := word_afterRead_memWrite_kbsr
  refine ⟨fun s a v => ⟨word_memWrite_self a v s, memWrite_frame a v s⟩, fun s v v' => ⟨?_, fun b => ?_⟩,
    fun s v k hk => ?_⟩
  · exact (hread s v kbsrAddr).trans (hread s v' kbsrAddr).symm
  · exact (hread s v' b).trans (hread s v b).symm
  · have heffect := (pollEffect_kbsrPoll (memWrite kbdrAddr v s)).2.2
    rw [host_memWrite, hk] at heffect
    exact heffect.2

/-- A byte taken is one the host's stream gives next. -/
theorem takeByte_eq_some_iff {h h' : HostSide} {c : Byte} : takeByte h = some (c, h') ↔ ByteReady h c h' := by
  refine ⟨takeByte_some, ?_⟩
  rintro (⟨rest, hin, rfl⟩ | ⟨hin, hend, rfl, rfl⟩) <;> simp [takeByte, *]

/-- Settles O14: of the poll's two outcomes, one takes a byte after the answer yes, one takes nothing. -/
theorem pollTakesNextByteOrNothing : Obligations.PollTakesNextByteOrNothing := by
  intro h
  refine ⟨fun k hk => ?_, fun hnone => ?_, takeAnswer_input h, fun b rest hb => ?_⟩
  · obtain ⟨hyes, k', h', htake, hpoll⟩ | ⟨hpoll, -⟩ := pollKey_cases h
    · rw [hpoll] at hk ⊢
      cases hk
      exact ⟨hyes, takeByte_eq_some_iff.1 htake⟩
    · rw [hpoll] at hk
      cases hk
  · obtain ⟨-, k', h', -, hpoll⟩ | ⟨hpoll, hwhy⟩ := pollKey_cases h
    · rw [hpoll] at hnone
      cases hnone
    · refine ⟨by rw [hpoll], hwhy.imp_right fun hended => ?_⟩
      rw [takeByte_none, takeAnswer_input, takeAnswer_ended] at hended
      exact hended
  · unfold takeAnswer
    rw [hb]
    exact ⟨rfl, rfl⟩

end Sys2Proof.Proofs
end

section
/-! BR, the loads and STI: what each does with its address, and what it leaves unchanged (41_control.md rule
R120, 42_load_store.md rules R130 to R135). -/

open Sys2Proof Sys2Proof.Machine Sys2Proof.Claims

namespace Sys2Proof.Proofs

/-! ## BR -/

/-- The mask test of BR is R120's, flag by flag. -/
theorem condMet_iff (nzp : BitVec 3) (c : Cond) : condMet nzp c = true ↔ branchTaken nzp c := by
  unfold branchTaken
  cases c <;> revert nzp <;> decide

theorem exec_br (nzp : BitVec 3) (off : BitVec 9) (s : State) :
    exec (.br nzp off) s = .next (s.setPc (if condMet nzp s.cond then s.pc + sext off else s.pc)) := by
  cases h : condMet nzp s.cond <;> simp [exec, execBr, h, pcRel9, State.setPc]

/-- Settles O20: BR only sets `pc`, to itself when the branch is not taken. -/
theorem branchTakenWhenMaskMeetsFlag : Obligations.BranchTakenWhenMaskMeetsFlag := by
  refine fun s nzp off => ⟨_, exec_br nzp off s, fun htaken => ?_, fun hnot => ?_, setPc_frame _ s⟩
  · rw [State.pc_setPc, if_pos ((condMet_iff _ _).2 htaken)]
    exact toNat_add_sext (by decide) s.pc off
  · rw [State.pc_setPc, if_neg (mt (condMet_iff _ _).1 hnot)]

/-! ## Loads -/

theorem reg_loadFrom (dr : RegIdx) (ea : Word) (s : State) (q : RegIdx) :
    (loadFrom dr ea s).reg q = if q = dr then (memRead ea s).1 else s.reg q := by
  unfold loadFrom
  rw [reg_writeResult, memRead_snd, reg_afterRead]

@[simp] theorem pc_loadFrom (dr : RegIdx) (ea : Word) (s : State) : (loadFrom dr ea s).pc = s.pc :=
  pc_afterRead ea s
@[simp] theorem running_loadFrom (dr : RegIdx) (ea : Word) (s : State) : (loadFrom dr ea s).running = s.running :=
  running_afterRead ea s
@[simp] theorem fault_loadFrom (dr : RegIdx) (ea : Word) (s : State) : (loadFrom dr ea s).fault = s.fault :=
  fault_afterRead ea s
@[simp] theorem out_loadFrom (dr : RegIdx) (ea : Word) (s : State) : (loadFrom dr ea s).out = s.out :=
  out_afterRead ea s
@[simp] theorem params_loadFrom (dr : RegIdx) (ea : Word) (s : State) : (loadFrom dr ea s).params = s.params :=
  params_afterRead ea s

/-- A load puts the word read in its destination, sets the flags by it, and does to memory and the host's side
what its read does. -/
theorem loadFrom_result (dr : RegIdx) (ea : Word) (s : State) :
    MemReadEffect ea ((loadFrom dr ea s).reg dr) s (loadFrom dr ea s) ∧
      (loadFrom dr ea s).cond = flagOf ((loadFrom dr ea s).reg dr) := by
  refine ⟨?_, cond_writeResult_eq_flagOf_reg dr _ _⟩
  rw [reg_loadFrom, if_pos rfl]
  exact memReadEffect_memRead ea s

/-- What a load leaves unchanged. -/
theorem loadFrom_frame (dr : RegIdx) (ea : Word) (s : State) :
    SameRegs [dr] s (loadFrom dr ea s) ∧ SamePc s (loadFrom dr ea s) ∧ (loadFrom dr ea s).out = s.out ∧
      SameStatus s (loadFrom dr ea s) := by
  refine ⟨fun r hr => ?_, pc_loadFrom .., out_loadFrom .., running_loadFrom .., fault_loadFrom .., params_loadFrom ..⟩
  rw [reg_loadFrom, if_neg (mt List.mem_singleton.2 hr)]

theorem exec_ld (dr : RegIdx) (off : BitVec 9) (s : State) :
    exec (.ld dr off) s = .next (loadFrom dr (pcRel9 off s) s) := rfl

theorem exec_ldi (dr : RegIdx) (off : BitVec 9) (s : State) :
    exec (.ldi dr off) s = .next (loadFrom dr (indirect off s).1 (indirect off s).2) := rfl

theorem exec_ldr (dr baseR : RegIdx) (off : BitVec 6) (s : State) :
    exec (.ldr dr baseR off) s = .next (loadFrom dr (basePlus baseR off s) s) := rfl

/-- Settles O25: LD is one load. -/
theorem loadPcRelativeResult : Obligations.LoadPcRelativeResult := fun s dr off =>
  ⟨_, exec_ld dr off s, (loadFrom_result dr _ s).1, (loadFrom_result dr _ s).2, loadFrom_frame dr _ s⟩

/-- Settles O27: LDR is one load. -/
theorem loadBasePlusOffsetResult : Obligations.LoadBasePlusOffsetResult := fun s dr baseR off =>
  ⟨_, exec_ldr dr baseR off s, (loadFrom_result dr _ s).1, (loadFrom_result dr _ s).2, loadFrom_frame dr _ s⟩

/-! ## Indirect access -/

@[simp] theorem indirect_snd (off : BitVec 9) (s : State) : (indirect off s).2 = afterRead (pcRel9 off s) s := rfl

/-- A pointer that is not at KBSR is read plainly. -/
theorem indirect_of_ne {off : BitVec 9} {s : State} (h : pcRel9 off s ≠ 0xFE00#16) :
    indirect off s = (s.word (pcRel9 off s), s) := by
  unfold indirect memRead
  rw [afterRead_of_ne h]

/-- Settles O26: LDI is a load from the pointer, in the state the pointer read leaves. -/
theorem loadIndirectResult : Obligations.LoadIndirectResult := by
  intro s dr off
  obtain ⟨heffect, hcond⟩ := loadFrom_result dr (indirect off s).1 (indirect off s).2
  have hregs := (loadFrom_frame dr (indirect off s).1 (indirect off s).2).1
  refine ⟨_, exec_ldi dr off s, heffect, fun hptr => ?_, hcond, fun r hr => ?_, ?_⟩
  · rw [indirect_of_ne hptr]
    exact (loadFrom_result dr _ s).1
  · rw [hregs r hr, indirect_snd, reg_afterRead]
  · simp [SamePc, SameStatus]

theorem exec_sti (sr : RegIdx) (off : BitVec 9) (s : State) :
    exec (.sti sr off) s = .next (memWrite (indirect off s).1 (s.reg sr) (indirect off s).2) := rfl

/-- Settles O30: STI is a store at the pointer, in the state the pointer read leaves. -/
theorem storeIndirectResult : Obligations.StoreIndirectResult := by
  intro s sr off
  obtain ⟨hmem, hframe⟩ := memWrite_frame (indirect off s).1 (s.reg sr) (indirect off s).2
  refine ⟨_, exec_sti sr off s, word_memWrite_self _ _ _, hmem, rfl, fun hptr => ?_, afterRead_same (pcRel9 off s) s⟩
  rw [indirect_of_ne hptr]
  exact ⟨rfl, (memWrite_frame _ _ s).1, rfl⟩

end Sys2Proof.Proofs
end

section
/-! TRAP, its routines, RTI and the reserved opcode: what each does, and what it leaves unchanged
(43_trap_and_system.md rules R150 to R160). -/

open Sys2Proof Sys2Proof.Machine Sys2Proof.Claims

namespace Sys2Proof.Proofs

/-! ## The dispatch -/

/-- Settles O32: each vector selects its routine, whose row runs the same after the link write. -/
theorem trapDispatchesOnItsVector : Obligations.TrapDispatchesOnItsVector := by
  have hrow (r : TrapRoutine) (s : State) :
      exec (.trap (Config.trapVector r)) s = exec (routineInstr r) s := by
    refine (execTrap_of_routine (routineOf_trapVector r) s).trans ?_
    cases r <;> rfl
  exact fun s => ⟨hrow .getc s, hrow .out s, hrow .puts s, hrow .inp s, hrow .putsp s, hrow .halt s⟩

/-- A vector outside the six selects no routine (R151). -/
theorem routineOf_eq_none {v : Byte} (h : v.toNat < 0x20 ∨ 0x25 < v.toNat) : routineOf v = none := by
  cases hr : routineOf v with
  | none => rfl
  | some r =>
    rw [← trapVector_of_routineOf hr] at h
    cases r <;> revert h <;> decide

theorem exec_trap_of_none {v : Byte} (h : routineOf v = none) (s : State) :
    exec (.trap v) s = .next (if s.params.unknownTrap = .noop then link s else raiseUnknownTrap v (link s)) :=
  execTrap_of_none h s

/-- What the link write leaves unchanged. -/
theorem link_regs (s : State) : SameRegs [linkReg] s (link s) := fun r hr => by
  rw [reg_link, if_neg (mt List.mem_singleton.2 hr)]

/-- Settles O33: the link write, and under `fatal` the record of the fault, at the address before the `pc`. -/
theorem unknownTrapFollowsPolicy : Obligations.UnknownTrapFollowsPolicy := by
  intro s v hv
  refine ⟨_, exec_trap_of_none (routineOf_eq_none hv) s, ?_⟩
  cases hp : s.params.unknownTrap with
  | noop =>
    exact ⟨reg_link_self s, fun _ => rfl, nofun, link_regs s, rfl, rfl, fun _ => rfl, ⟨rfl, rfl⟩, rfl, rfl⟩
  | fatal =>
    exact ⟨reg_link_self s, nofun, fun _ => rfl, link_regs s, rfl, rfl, fun _ => rfl, ⟨rfl, rfl⟩, rfl, rfl⟩

/-! ## RTI and the reserved opcode -/

theorem exec_rti (low : BitVec 12) (s : State) :
    exec (.rti low) s = .next (raiseBadOpcode (encode (.rti low)) s) := rfl

theorem exec_res (low : BitVec 12) (s : State) :
    exec (.res low) s = .next (raiseBadOpcode (encode (.res low)) s) := rfl

/-- A word of an opcode and twelve low bits, by R81's arithmetic. -/
theorem opcode_append_eq_ofNat (b : BitVec 4) (low : BitVec 12) :
    (b ++ low : BitVec (4 + 12)) = BitVec.ofNat 16 (b.toNat * 0x1000 + low.toNat) := by
  apply BitVec.eq_of_toNat_eq
  rw [BitVec.toNat_append, BitVec.toNat_ofNat, Nat.shiftLeft_eq, Nat.mod_eq_of_lt (by omega)]
  rw [← Nat.shiftLeft_eq, Nat.shiftLeft_add_eq_or_of_lt low.isLt]

/-- What recording a fatal error leaves unchanged. -/
theorem raiseBadOpcode_frame (ir : Word) (s : State) :
    SameRegs [] s (raiseBadOpcode ir s) ∧ SamePc s (raiseBadOpcode ir s) ∧ SameCond s (raiseBadOpcode ir s) ∧
      SameMemory s (raiseBadOpcode ir s) ∧ SameConsole s (raiseBadOpcode ir s) ∧
      (raiseBadOpcode ir s).running = s.running ∧ (raiseBadOpcode ir s).params = s.params :=
  ⟨fun _ _ => rfl, rfl, rfl, fun _ => rfl, ⟨rfl, rfl⟩, rfl, rfl⟩

/-- Settles O40: both record their own word, RTI's opcode being 8 and the reserved one 13. -/
theorem rtiAndReservedRecordBadOpcode : Obligations.RtiAndReservedRecordBadOpcode := by
  intro s low
  refine ⟨_, _, exec_rti low s, exec_res low s, ?_, ?_, raiseBadOpcode_frame _ s, raiseBadOpcode_frame _ s⟩
  · exact congrArg (FaultStatus.badOpcode · (s.pc - 1#16)) (opcode_append_eq_ofNat 0x8#4 low)
  · exact congrArg (FaultStatus.badOpcode · (s.pc - 1#16)) (opcode_append_eq_ofNat 0xD#4 low)

/-! ## GETC, OUT, IN and HALT -/

/-- GETC with a byte ready. -/
theorem exec_getc_of_byteReady {s : State} {c : Byte} {h : HostSide} (hc : ByteReady s.host c h) :
    exec .getc s = .next (writeResult argReg (zext c) { link s with host := h }) := by
  simp [exec, execGetc, routineGetc, takeByte_eq_some_iff.2 hc]

/-- IN with a byte ready. -/
theorem exec_inp_of_byteReady {s : State} {c : Byte} {h : HostSide} (hc : ByteReady s.host c h) :
    exec .inp s =
      .next (writeResult argReg (zext c) (emit [c] { emit s.params.inPrompt (link s) with host := h })) := by
  simp [exec, execInp, routineIn, takeByte_eq_some_iff.2 hc]

theorem exec_out (s : State) : exec .out s = .next (emit [lowByte (s.reg argReg)] (link s)) := by
  simp [exec, execOut, routineOut]

theorem exec_halt (s : State) :
    exec .halt s = .next { emit s.params.haltNotice (link s) with running := false } := rfl

theorem toNat_zext (c : Byte) : (zext c).toNat = c.toNat := BitVec.toNat_setWidth_of_le (by decide)

/-- A byte has its high bits 0 as a word, so its flag is ZRO or POS (R26, D12). -/
theorem condOf_zext (c : Byte) :
    (c.toNat = 0 → condOf (zext c) = .zro) ∧ (c.toNat ≠ 0 → condOf (zext c) = .pos) := by
  have hzero : zext c = 0#16 ↔ c.toNat = 0 := by rw [← BitVec.toNat_inj, toNat_zext]; rfl
  have hmsb : (zext c).msb = false := by
    rw [BitVec.msb_eq_false_iff_two_mul_lt, toNat_zext]
    have := c.isLt
    omega
  unfold condOf
  exact ⟨fun h => if_pos (hzero.2 h), fun h => by rw [if_neg (mt hzero.1 h), hmsb]; rfl⟩

/-! What GETC and IN leave of a byte, written in a state `u` that has the registers of the link write. -/

section
variable {s u : State} (v : Word) (hregs : ∀ r, u.reg r = (link s).reg r)
include hregs

theorem reg_linkReg_writeResult_argReg : (writeResult argReg v u).reg linkReg = s.pc := by
  rw [reg_writeResult, if_neg (by decide), hregs, reg_link_self]

theorem sameRegs_writeResult_argReg : SameRegs [0#3, 7#3] s (writeResult argReg v u) := by
  intro r hr
  obtain ⟨h0, h7⟩ : r ≠ argReg ∧ r ≠ linkReg := not_or.1 (mt List.mem_pair.2 hr)
  rw [reg_writeResult, if_neg h0, hregs, reg_link, if_neg h7]

end

theorem toNat_reg_writeResult_zext (c : Byte) (u : State) :
    ((writeResult argReg (zext c) u).reg argReg).toNat = c.toNat := by
  rw [reg_writeResult_self, toNat_zext]

/-- Settles O34: the byte to R0 after the link write, and no echo. -/
theorem getcReadsOneByte : Obligations.GetcReadsOneByte := by
  intro s c h hc
  obtain ⟨hzro, hpos⟩ := condOf_zext c
  exact ⟨_, exec_getc_of_byteReady hc, toNat_reg_writeResult_zext c _,
    reg_linkReg_writeResult_argReg _ fun _ => rfl, rfl, hzro, hpos, sameRegs_writeResult_argReg _ fun _ => rfl,
    rfl, fun _ => rfl, rfl, rfl, rfl, rfl⟩

/-- Settles O37: as O34, after the prompt and the echo. -/
theorem inPromptsAndEchoes : Obligations.InPromptsAndEchoes := by
  intro s c h hc
  obtain ⟨hzro, hpos⟩ := condOf_zext c
  exact ⟨_, exec_inp_of_byteReady hc, rfl, toNat_reg_writeResult_zext c _,
    reg_linkReg_writeResult_argReg _ fun _ => rfl, rfl, hzro, hpos, sameRegs_writeResult_argReg _ fun _ => rfl,
    rfl, fun _ => rfl, rfl, rfl, rfl⟩

/-- Settles O41: there is no byte to take. -/
theorem getcAndInBlockWhenInputEnded : Obligations.GetcAndInBlockWhenInputEnded := by
  intro s hended
  have hnone : takeByte s.host = none := takeByte_none.2 hended
  exact ⟨by simp [exec, execGetc, routineGetc, hnone], by simp [exec, execInp, routineIn, hnone]⟩

theorem lowByte_eq_lowPart (w : Word) : lowByte w = lowPart w := by
  apply BitVec.eq_of_toNat_eq
  simp [lowByte, lowPart]

theorem highByte_eq_highPart (w : Word) : highByte w = highPart w := by
  apply BitVec.eq_of_toNat_eq
  simp [highByte, highPart, Nat.shiftRight_eq_div_pow]

/-- What printing after the link write leaves unchanged. -/
theorem emit_link_frame (bytes : List Byte) (s : State) :
    (emit bytes (link s)).reg 7#3 = s.pc ∧ (emit bytes (link s)).host = s.host ∧
      SameRegs [7#3] s (emit bytes (link s)) ∧ SamePc s (emit bytes (link s)) ∧ SameCond s (emit bytes (link s)) ∧
      SameMemory s (emit bytes (link s)) ∧ SameStatus s (emit bytes (link s)) :=
  ⟨reg_link_self s, rfl, link_regs s, rfl, rfl, fun _ => rfl, rfl, rfl, rfl⟩

/-- Settles O35: OUT only prints, one byte. -/
theorem outWritesLowByte : Obligations.OutWritesLowByte := fun s =>
  ⟨_, exec_out s, by rw [out_emit, out_link, lowByte_eq_lowPart]; rfl, emit_link_frame _ s⟩

/-- Settles O39: HALT prints the notice and clears `running`. -/
theorem haltClearsRunning : Obligations.HaltClearsRunning := fun s =>
  ⟨_, exec_halt s, rfl, rfl, reg_link_self s, rfl, rfl, rfl, link_regs s, rfl, rfl, fun _ => rfl⟩

/-! ## The string routines -/

/-- The address of any word is reached from any pointer in fewer than 65536 steps (D20). -/
theorem exists_offset (p a : Word) : ∃ i < memWords, p + BitVec.ofNat 16 i = a :=
  ⟨(a - p).toNat, (a - p).isLt, by rw [BitVec.ofNat_toNat, BitVec.setWidth_eq, BitVec.add_comm, BitVec.sub_add_cancel]⟩

/-- A string with `n` words before its first zero word has fewer than 65536: otherwise the pointer would have
met the zero word before. -/
theorem length_lt_memWords {m : Memory} {p : Word} {n : Nat} (hne : ∀ i < n, m.read (p + BitVec.ofNat 16 i) ≠ 0#16)
    (hzero : m.read (p + BitVec.ofNat 16 n) = 0#16) : n < memWords := by
  obtain ⟨i, hi, he⟩ := exists_offset p (p + BitVec.ofNat 16 n)
  by_contra hn
  exact hne i (by omega) (he ▸ hzero)

theorem exec_puts (s : State) : exec .puts s = writeString putsChars (link s) := rfl

theorem exec_putsp (s : State) : exec .putsp s = writeString putspChars (link s) := rfl

/-- After the link write, the loop over a string with `n` words before its first zero word writes the characters
of those words. -/
theorem writeString_of_first_zero (chars : Word → List Byte) {s : State} {n : Nat}
    (hne : ∀ i < n, s.word (s.reg 0#3 + BitVec.ofNat 16 i) ≠ 0#16)
    (hzero : s.word (s.reg 0#3 + BitVec.ofNat 16 n) = 0#16) :
    writeString chars (link s) =
      .next (emit ((List.range n).flatMap fun i => chars (s.word (s.reg 0#3 + BitVec.ofNat 16 i))) (link s)) := by
  obtain ⟨bs, hbs, hnext⟩ | ⟨hnone, -⟩ := writeString_cases chars (link s)
  · rw [mem_link, reg_link_argReg] at hbs
    obtain ⟨k, -, hnek, hzerok, rfl⟩ := stringBytes_some hbs
    obtain rfl : k = n := by
      obtain h | h | h := Nat.lt_trichotomy k n
      · exact absurd hzerok (hne k h)
      · exact h
      · exact absurd hzero (hnek n h)
    rw [hnext, List.flatMap]
    rfl
  · rw [mem_link, reg_link_argReg] at hnone
    exact absurd hzero (stringBytes_none.1 hnone n (length_lt_memWords hne hzero))

/-- After the link write, the loop ends in every state with a zero word. -/
theorem writeString_ends (chars : Word → List Byte) {s : State} {a : Word} (ha : s.word a = 0#16) :
    ∃ t, writeString chars (link s) = .next t := by
  obtain ⟨bs, -, hnext⟩ | ⟨hnone, -⟩ := writeString_cases chars (link s)
  · exact ⟨_, hnext⟩
  · rw [mem_link, reg_link_argReg] at hnone
    obtain ⟨i, hi, he⟩ := exists_offset (s.reg argReg) a
    exact absurd ha (he ▸ stringBytes_none.1 hnone i hi)

/-- After the link write, the loop never ends in a state without a zero word. -/
theorem writeString_endless (chars : Word → List Byte) {s : State} (h : ∀ a, s.word a ≠ 0#16) :
    writeString chars (link s) = .fault .stringNeverEnds := by
  obtain ⟨bs, hbs, -⟩ | ⟨-, hfault⟩ := writeString_cases chars (link s)
  · obtain ⟨n, -, -, hzero, -⟩ := stringBytes_some hbs
    exact absurd hzero (h _)
  · exact hfault

/-- Settles O36: PUTS writes one character for a word, its low byte. -/
theorem putsWritesOneBytePerWord : Obligations.PutsWritesOneBytePerWord := by
  intro s n hne hzero
  refine ⟨_, writeString_of_first_zero putsChars hne hzero, ?_, emit_link_frame _ s⟩
  simp only [out_emit, out_link, putsChars, lowByte_eq_lowPart, List.map_eq_flatMap]

theorem highByte_eq_zero_iff (w : Word) : highByte w = 0#8 ↔ w.toNat / 256 = 0 := by
  have := w.isLt
  rw [highByte_eq_highPart, highPart, ← BitVec.toNat_inj, BitVec.toNat_ofNat, BitVec.toNat_ofNat]
  omega

/-- PUTSP's characters of a word, in R156's arithmetic. -/
theorem putspChars_eq (w : Word) :
    putspChars w = if w.toNat / 256 = 0 then [lowPart w] else [lowPart w, highPart w] := by
  simp only [putspChars, lowByte_eq_lowPart, highByte_eq_highPart, ← highByte_eq_zero_iff]

/-- Settles O38: PUTSP writes one or two characters for a word. -/
theorem putspWritesPackedBytes : Obligations.PutspWritesPackedBytes := by
  intro s n hne hzero
  refine ⟨_, writeString_of_first_zero putspChars hne hzero, ?_, emit_link_frame _ s⟩
  simp only [out_emit, out_link, putspChars_eq]

/-- Settles O42: both routines are the loop after the link write. -/
theorem stringRoutinesEndIffAZeroWord : Obligations.StringRoutinesEndIffAZeroWord := fun _ =>
  ⟨fun ⟨_, ha⟩ => ⟨writeString_ends putsChars ha, writeString_ends putspChars ha⟩,
    fun h => ⟨writeString_endless putsChars h, writeString_endless putspChars h⟩⟩

end Sys2Proof.Proofs
end

section
/-! What the execute part of a step changes, field by field, for every instruction, and the statements about
every step that follow (10_state.md rules R21 to R36, 60_exceptions.md rules R180 to R187).

A TRAP term is always one whose vector selects no routine, as a decoded one is (`routineOf_of_decode_trap`). -/

open Sys2Proof Sys2Proof.Machine Sys2Proof.Claims

namespace Sys2Proof.Proofs

/-! ## The next state of the instructions that can stop or branch inside -/

theorem exec_getc_next {s t : State} (h : exec .getc s = .next t) :
    ∃ c host, ByteReady s.host c host ∧ t = writeResult argReg (zext c) { link s with host := host } := by
  obtain ⟨c, host, hc, rfl⟩ := routineGetc_next h
  exact ⟨c, host, takeByte_eq_some_iff.1 hc, rfl⟩

theorem exec_inp_next {s t : State} (h : exec .inp s = .next t) :
    ∃ c host, ByteReady s.host c host ∧
      t = writeResult argReg (zext c) (emit [c] { emit s.params.inPrompt (link s) with host := host }) := by
  obtain ⟨c, host, hc, rfl⟩ := routineIn_next h
  exact ⟨c, host, takeByte_eq_some_iff.1 hc, rfl⟩

theorem exec_trap_next {v : Byte} {s t : State} (hv : routineOf v = none) (h : exec (.trap v) s = .next t) :
    t = if s.params.unknownTrap = .noop then link s else raiseUnknownTrap v (link s) := by
  cases (exec_trap_of_none hv s).symm.trans h
  rfl

/-! ## What reads do -/

/-- `u` is what some number of MemReads, perhaps none, leave of `s`. -/
inductive ReadsTo (s : State) : State → Prop
  | refl : ReadsTo s s
  | read {u : State} (a : Word) (h : ReadsTo s u) : ReadsTo s (afterRead a u)

/-- Bytes have left the input stream from its front, and nothing else of it has changed (R33). -/
def InputAdvances (h h' : HostSide) : Prop := (∃ taken, h.input = taken ++ h'.input) ∧ h'.ended = h.ended

theorem InputAdvances.refl (h : HostSide) : InputAdvances h h := ⟨⟨[], rfl⟩, rfl⟩

theorem InputAdvances.trans {h h' h'' : HostSide} (h1 : InputAdvances h h') (h2 : InputAdvances h' h'') :
    InputAdvances h h'' := by
  obtain ⟨⟨taken, e⟩, hended⟩ := h1
  obtain ⟨⟨taken', e'⟩, hended'⟩ := h2
  exact ⟨⟨taken ++ taken', by rw [e, e', List.append_assoc]⟩, hended'.trans hended⟩

theorem inputAdvances_of_byteReady {h h' : HostSide} {c : Byte} (hc : ByteReady h c h') : InputAdvances h h' := by
  obtain ⟨rest, hin, rfl⟩ | ⟨-, -, -, rfl⟩ := hc
  · exact ⟨⟨[c], hin⟩, rfl⟩
  · exact ⟨⟨[], rfl⟩, rfl⟩

/-- An answer takes no byte, and after it a poll takes at most the next one (R53). -/
theorem inputAdvances_pollKey (h : HostSide) : InputAdvances h (pollKey h).2 := by
  have hanswer : InputAdvances h (takeAnswer h).2 := ⟨⟨[], (takeAnswer_input h).symm⟩, takeAnswer_ended h⟩
  obtain ⟨-, k, h', htake, hpoll⟩ | ⟨hpoll, -⟩ := pollKey_cases h <;> rw [hpoll]
  · exact hanswer.trans (inputAdvances_of_byteReady (takeByte_eq_some_iff.1 htake))
  · exact hanswer

theorem inputAdvances_afterRead (a : Word) (s : State) : InputAdvances s.host (afterRead a s).host := by
  by_cases ha : a = kbsrAddr
  · obtain ⟨-, hhost, -⟩ := pollEffect_kbsrPoll s
    rw [ha, afterRead_kbsr, hhost]
    exact inputAdvances_pollKey s.host
  · rw [afterRead_of_ne ha]
    exact .refl _

theorem ReadsTo.wf {s u : State} (h : ReadsTo s u) (hs : s.mem.wf = true) : u.mem.wf = true := by
  induction h with
  | refl => exact hs
  | read a _ ih => exact wf_afterRead ih a

theorem ReadsTo.word {s u : State} (h : ReadsTo s u) {b : Word} (hkbsr : b ≠ kbsrAddr) (hkbdr : b ≠ kbdrAddr) :
    u.word b = s.word b := by
  induction h with
  | refl => rfl
  | read a _ ih => rw [word_afterRead_of_ne a _ hkbsr hkbdr, ih]

theorem ReadsTo.inputAdvances {s u : State} (h : ReadsTo s u) : InputAdvances s.host u.host := by
  induction h with
  | refl => exact .refl _
  | read a _ ih => exact ih.trans (inputAdvances_afterRead a _)

/-! ## The execute part, field by field -/

section
variable {i : Instr} {s t : State}

/-- Only HALT writes `running` (R28), no instruction the parameters (R4), and the fault recorded is the one of the
instruction (R180, R181). -/
theorem exec_status (htrap : ∀ v, i = .trap v → routineOf v = none) (h : exec i s = .next t) :
    t.running = (if i = .halt then false else s.running) ∧ t.params = s.params ∧
      (s.fault = .none → t.fault = faultOf i (encode i) (s.pc - 1#16) s.params.unknownTrap) := by
  cases i with
  | addr | addi | andr | andi | not | lea | jmp | ret | jsr | jsrr | st | str | out | halt =>
    cases h; exact ⟨rfl, rfl, id⟩
  | br => cases (exec_br _ _ s).symm.trans h; exact ⟨rfl, rfl, id⟩
  | ld | ldi | ldr | sti => cases h; simp [faultOf]
  | puts | putsp => obtain ⟨bs, rfl⟩ := writeString_next h; exact ⟨rfl, rfl, id⟩
  | getc => obtain ⟨c, host, -, rfl⟩ := exec_getc_next h; exact ⟨rfl, rfl, id⟩
  | inp => obtain ⟨c, host, -, rfl⟩ := exec_inp_next h; exact ⟨rfl, rfl, id⟩
  | rti | res => cases h; exact ⟨rfl, rfl, fun _ => rfl⟩
  | trap v =>
    rw [exec_trap_next (htrap v rfl) h]
    cases hp : s.params.unknownTrap
    · exact ⟨rfl, rfl, id⟩
    · exact ⟨rfl, rfl, fun _ => rfl⟩

/-- The output grows at its end, and only in the rows that print (R32). -/
theorem exec_out_grows (htrap : ∀ v, i = .trap v → routineOf v = none) (h : exec i s = .next t) :
    ∃ bytes, t.out = s.out ++ bytes ∧ (isPrinting i = false → bytes = []) := by
  have hquiet (e : t.out = s.out) : ∃ bytes, t.out = s.out ++ bytes ∧ (isPrinting i = false → bytes = []) :=
    ⟨[], e.trans (List.append_nil _).symm, fun _ => rfl⟩
  cases i with
  | addr | addi | andr | andi | not | lea | jmp | ret | jsr | jsrr | st | str | rti | res =>
    cases h; exact hquiet rfl
  | br => cases (exec_br _ _ s).symm.trans h; exact hquiet rfl
  | ld | ldi | ldr | sti => cases h; exact hquiet (by simp)
  | out | halt => cases h; exact ⟨_, rfl, nofun⟩
  | puts | putsp => obtain ⟨bs, rfl⟩ := writeString_next h; exact ⟨_, rfl, nofun⟩
  | getc => obtain ⟨c, host, -, rfl⟩ := exec_getc_next h; exact hquiet rfl
  | inp => obtain ⟨c, host, -, rfl⟩ := exec_inp_next h; exact ⟨_, List.append_assoc .., nofun⟩
  | trap v =>
    rw [exec_trap_next (htrap v rfl) h] at hquiet ⊢
    exact hquiet (by split <;> rfl)

/-- The general registers an instruction writes are those of its row (R36). -/
theorem exec_regs (htrap : ∀ v, i = .trap v → routineOf v = none) (h : exec i s = .next t) :
    SameRegs (writtenRegs i) s t := by
  cases i with
  | addr dr | addi dr | andr dr | andi dr | not dr | lea dr => cases h; exact (writeResult_frame dr _ _).1
  | ld dr | ldr dr => cases h; exact (loadFrom_frame dr _ _).1
  | ldi dr => cases h; exact fun r hr => ((loadFrom_frame dr _ _).1 r hr).trans (reg_afterRead _ _ _)
  | jmp | ret | st | str | rti | res => cases h; exact fun _ _ => rfl
  | br => cases (exec_br _ _ s).symm.trans h; exact fun _ _ => rfl
  | sti => cases h; exact fun r _ => reg_afterRead _ _ _
  | jsr | jsrr | out | halt => cases h; exact link_regs s
  | puts | putsp => obtain ⟨bs, rfl⟩ := writeString_next h; exact link_regs s
  | getc => obtain ⟨c, host, -, rfl⟩ := exec_getc_next h; exact sameRegs_writeResult_argReg _ fun _ => rfl
  | inp => obtain ⟨c, host, -, rfl⟩ := exec_inp_next h; exact sameRegs_writeResult_argReg _ fun _ => rfl
  | trap v => rw [exec_trap_next (htrap v rfl) h]; split <;> exact link_regs s

/-- The link register of a linking instruction is the incremented `pc` when it ends (R21, R190). -/
theorem exec_link (htrap : ∀ v, i = .trap v → routineOf v = none) (hi : isLinking i = true)
    (h : exec i s = .next t) : t.reg linkReg = s.pc := by
  cases i with
  | addr | addi | andr | andi | not | lea | ld | ldi | ldr | jmp | ret | br | st | sti | str | rti | res => cases hi
  | jsr | jsrr | out | halt => cases h; exact reg_link_self s
  | puts | putsp => obtain ⟨bs, rfl⟩ := writeString_next h; exact reg_link_self s
  | getc => obtain ⟨c, host, -, rfl⟩ := exec_getc_next h; exact reg_linkReg_writeResult_argReg _ fun _ => rfl
  | inp => obtain ⟨c, host, -, rfl⟩ := exec_inp_next h; exact reg_linkReg_writeResult_argReg _ fun _ => rfl
  | trap v => rw [exec_trap_next (htrap v rfl) h]; split <;> exact reg_link_self s

/-- The instructions whose execute part may poll the keyboard: loads and the pointer read of STI (R56). -/
def mayPoll : Instr → Bool
  | .ld _ _ | .ldi _ _ | .ldr _ _ _ | .sti _ _ => true
  | .addr _ _ _ | .addi _ _ _ | .andr _ _ _ | .andi _ _ _ | .not _ _ | .br _ _ | .jmp _ | .ret => false
  | .jsr _ | .jsrr _ | .lea _ _ | .st _ _ | .str _ _ _ | .trap _ | .getc | .out | .puts | .inp => false
  | .putsp | .halt | .rti _ | .res _ => false

/-- Memory and the host's side after an instruction: what its reads leave (nothing changed where it has none), then
the word of a store, and the byte GETC or IN takes. -/
theorem exec_reads (htrap : ∀ v, i = .trap v → routineOf v = none) (h : exec i s = .next t) :
    ∃ u, ReadsTo s u ∧ (mayPoll i = false → u = s) ∧
      (t.mem = u.mem ∨ ∃ a v, storeTarget i s = some a ∧ t.mem = u.mem.write a v) ∧
      (t.host = u.host ∨ (i = .getc ∨ i = .inp) ∧ ∃ c, ByteReady u.host c t.host) := by
  cases i with
  | addr | addi | andr | andi | not | lea | jmp | ret | jsr | jsrr | out | halt | rti | res =>
    cases h; exact ⟨s, .refl, fun _ => rfl, .inl rfl, .inl rfl⟩
  | br => cases (exec_br _ _ s).symm.trans h; exact ⟨s, .refl, fun _ => rfl, .inl rfl, .inl rfl⟩
  | puts | putsp =>
    obtain ⟨bs, rfl⟩ := writeString_next h; exact ⟨s, .refl, fun _ => rfl, .inl rfl, .inl rfl⟩
  | trap v =>
    rw [exec_trap_next (htrap v rfl) h]
    exact ⟨s, .refl, fun _ => rfl, .inl (by split <;> rfl), .inl (by split <;> rfl)⟩
  | ld | ldr => cases h; exact ⟨_, .read _ .refl, nofun, .inl rfl, .inl rfl⟩
  | ldi => cases h; exact ⟨_, .read _ (.read _ .refl), nofun, .inl rfl, .inl rfl⟩
  | st | str => cases h; exact ⟨s, .refl, fun _ => rfl, .inr ⟨_, _, rfl, rfl⟩, .inl rfl⟩
  | sti => cases h; exact ⟨_, .read _ .refl, nofun, .inr ⟨_, _, rfl, rfl⟩, .inl rfl⟩
  | getc =>
    obtain ⟨c, host, hc, rfl⟩ := exec_getc_next h
    exact ⟨s, .refl, fun _ => rfl, .inl rfl, .inr ⟨.inl rfl, c, hc⟩⟩
  | inp =>
    obtain ⟨c, host, hc, rfl⟩ := exec_inp_next h
    exact ⟨s, .refl, fun _ => rfl, .inl rfl, .inr ⟨.inr rfl, c, hc⟩⟩

/-- The canonical form of memory is kept (log 21). -/
theorem exec_wf (htrap : ∀ v, i = .trap v → routineOf v = none) (h : exec i s = .next t)
    (hs : s.mem.wf = true) : t.mem.wf = true := by
  obtain ⟨u, hu, -, hmem | ⟨a, v, -, hmem⟩, -⟩ := exec_reads htrap h <;> rw [hmem]
  · exact hu.wf hs
  · exact Memory.wf_write (hu.wf hs) a v

/-- A word that no store goes to changes only by a poll (R36, R52). -/
theorem exec_word (htrap : ∀ v, i = .trap v → routineOf v = none) (h : exec i s = .next t) {b : Word}
    (hstore : storeTarget i s ≠ some b) (hpoll : mayPoll i = true → b ≠ kbsrAddr ∧ b ≠ kbdrAddr) :
    t.word b = s.word b := by
  obtain ⟨u, hu, hquiet, hmem, -⟩ := exec_reads htrap h
  have hread : u.word b = s.word b := by
    cases hi : mayPoll i with
    | false => rw [hquiet hi]
    | true => exact hu.word (hpoll hi).1 (hpoll hi).2
  refine Eq.trans ?_ hread
  unfold State.word
  obtain hmem | ⟨a, v, ha, hmem⟩ := hmem <;> rw [hmem]
  rw [Memory.read_write, if_neg]
  rintro rfl
  exact hstore ha

/-- Input is taken in order (R33). -/
theorem exec_input (htrap : ∀ v, i = .trap v → routineOf v = none) (h : exec i s = .next t) :
    InputAdvances s.host t.host := by
  obtain ⟨u, hu, -, -, hhost | ⟨-, c, hc⟩⟩ := exec_reads htrap h
  · exact hhost ▸ hu.inputAdvances
  · exact hu.inputAdvances.trans (inputAdvances_of_byteReady hc)

/-- The host's side is used only by a poll, GETC and IN (R186). -/
theorem exec_host (htrap : ∀ v, i = .trap v → routineOf v = none) (h : exec i s = .next t)
    (hpoll : mayPoll i = false) (hgetc : i ≠ .getc) (hinp : i ≠ .inp) : t.host = s.host := by
  obtain ⟨u, -, hquiet, -, hhost | ⟨hi | hi, -⟩⟩ := exec_reads htrap h
  · rw [hhost, hquiet hpoll]
  · exact absurd hi hgetc
  · exact absurd hi hinp

end

end Sys2Proof.Proofs
end

section
/-! The statements about every step, from what the fetch and the execute part each change, and with them the
invariant (10_state.md rules R21 to R36, 60_exceptions.md rules R180 to R190). -/

open Sys2Proof Sys2Proof.Machine Sys2Proof.Claims

namespace Sys2Proof.Proofs

/-! ## Where `pc` goes -/

/-- An address relative to the incremented `pc`, in R23's arithmetic. -/
theorem add_one_add_sext {n : Nat} (hn : n ≤ 16) (pc : Word) (off : BitVec n) :
    pc + 1#16 + sext off = BitVec.ofNat 16 (pc.toNat + 1 + signExtended n off) := by
  apply BitVec.eq_of_toNat_eq
  rw [toNat_add_sext hn, BitVec.toNat_add, BitVec.toNat_ofNat]
  simp

/-- The execute part moves `pc` as R23 says, from a state that holds the incremented `pc`. -/
theorem pcAdvances_of_exec {i : Instr} {s u t : State} (hpc : u.pc = s.pc + 1#16) (hreg : ∀ r, u.reg r = s.reg r)
    (hcond : u.cond = s.cond) (htrap : ∀ v, i = .trap v → routineOf v = none) (h : exec i u = .next t) :
    PcAdvances i s t := by
  cases i with
  | addr | addi | andr | andi | not | lea | st | str | out | halt | rti | res => cases h; exact hpc
  | ld | ldi | ldr | sti => cases h; simpa [PcAdvances] using hpc
  | puts | putsp => obtain ⟨bs, rfl⟩ := writeString_next h; exact hpc
  | getc => obtain ⟨c, host, -, rfl⟩ := exec_getc_next h; exact hpc
  | inp => obtain ⟨c, host, -, rfl⟩ := exec_inp_next h; exact hpc
  | trap v => rw [exec_trap_next (htrap v rfl) h]; split <;> exact hpc
  | jmp b => cases h; exact hreg b
  | ret => cases h; exact hreg linkReg
  | jsr off => 
    cases (exec_jsr off u).symm.trans h
    rw [hpc]
    exact add_one_add_sext (by decide) s.pc off
  | jsrr b =>
    cases h
    refine ⟨fun hne => ?_, ?_⟩
    · exact (reg_link u b).trans ((if_neg hne).trans (hreg b))
    · rintro rfl
      exact (reg_link_self u).trans hpc
  | br nzp off =>
    cases (exec_br nzp off u).symm.trans h
    rw [hpc, hcond]
    refine ⟨fun htaken => ?_, fun hnot => ?_⟩
    · rw [State.pc_setPc, if_pos ((condMet_iff _ _).2 htaken)]
      exact add_one_add_sext (by decide) s.pc off
    · rw [State.pc_setPc, if_neg (mt (condMet_iff _ _).1 hnot)]

/-- Settles O50: the fetch leaves the incremented `pc` and the registers and flags it found. -/
theorem pcAdvancesByRule23 : Obligations.PcAdvancesByRule23 := by
  intro s t hstep
  obtain ⟨-, hexec⟩ := step_next hstep
  have hpc : (fetch s).2.pc = s.pc + 1#16 := rfl
  have hreg (r : RegIdx) : (fetch s).2.reg r = s.reg r := reg_afterRead s.pc s r
  have hcond : (fetch s).2.cond = s.cond := cond_afterRead s.pc s
  exact pcAdvances_of_exec hpc hreg hcond (fun _ => routineOf_of_decode_trap) hexec

/-! ## Status -/

/-- The word of a fault is the one fetched: RTI and the reserved opcode have no ignored bit (R183). -/
theorem faultOf_encode_decode (w address : Word) (policy : Config.TrapPolicy) :
    faultOf (decode w) (encode (decode w)) address policy = faultOf (decode w) w address policy := by
  have hused := (encodeOfDecodeKeepsUsedBits w).2
  cases hi : decode w with
  | rti | res =>
    rw [hi] at hused
    exact congrArg (FaultStatus.badOpcode · address) (by simpa [ignoredBits] using hused)
  | addr | addi | andr | andi | not | lea | ld | ldi | ldr | jmp | ret | br | jsr | jsrr | st | sti | str
  | trap | getc | out | puts | inp | putsp | halt => rfl

/-- Settles O48: the fetch records no fault, and the address is the incremented `pc` minus one. -/
theorem faultsComeOnlyFromTheirCauses : Obligations.FaultsComeOnlyFromTheirCauses := by
  intro s t hstep
  obtain ⟨⟨-, hnone⟩, hexec⟩ := step_next hstep
  obtain ⟨-, -, hfault⟩ := exec_status (fun _ => routineOf_of_decode_trap) hexec
  rw [hfault (by simpa using hnone), faultOf_encode_decode]
  simp [fetched]

/-- Settles O47: the run was on when the step began. -/
theorem onlyHaltClearsRunning : Obligations.OnlyHaltClearsRunning := by
  intro s t hstep
  obtain ⟨⟨hrunning, -⟩, hexec⟩ := step_next hstep
  obtain ⟨hclears, -, -⟩ := exec_status (fun _ => routineOf_of_decode_trap) hexec
  rw [hclears, fetch_snd, State.running_setPc, running_afterRead, hrunning]
  exact ⟨fun h => by_contra fun hne => absurd ((if_neg hne).symm.trans h) (by decide), fun h => if_pos h⟩

/-- Settles O49: the fetch prints nothing. -/
theorem consoleOutputOnlyGrows : Obligations.ConsoleOutputOnlyGrows := by
  intro s t hstep
  obtain ⟨-, hexec⟩ := step_next hstep
  obtain ⟨bytes, hout, hquiet⟩ := exec_out_grows (fun _ => routineOf_of_decode_trap) hexec
  exact ⟨bytes, by simpa using hout, hquiet⟩

/-! ## Registers -/

/-- Settles O52: the fetch writes no general register. -/
theorem stepWritesOnlyListedRegisters : Obligations.StepWritesOnlyListedRegisters := by
  intro s t hstep r hr
  obtain ⟨-, hexec⟩ := step_next hstep
  rw [exec_regs (fun _ => routineOf_of_decode_trap) hexec r hr, fetch_snd, State.reg_setPc, reg_afterRead]

/-- Settles O53: the `pc` linked is the one the fetch leaves. -/
theorem linkRegisterHoldsReturnAddress : Obligations.LinkRegisterHoldsReturnAddress := by
  intro s t hstep hlinking
  obtain ⟨-, hexec⟩ := step_next hstep
  exact exec_link (fun _ => routineOf_of_decode_trap) hlinking hexec

/-! ## Memory and the keyboard -/

/-- Settles O51: the fetch changes the keyboard's two words at most. -/
theorem onlyStoresAndPollsWriteMemory : Obligations.OnlyStoresAndPollsWriteMemory := by
  intro s t hstep a hchanged
  obtain ⟨-, hexec⟩ := step_next hstep
  by_contra hcause
  obtain ⟨hkbsr, hkbdr, hstore⟩ := by simpa only [not_or] using hcause
  refine hchanged ?_
  calc t.word a = (fetch s).2.word a :=
        exec_word (fun _ => routineOf_of_decode_trap) hexec hstore fun _ => ⟨hkbsr, hkbdr⟩
    _ = s.word a := word_afterRead_of_ne s.pc s hkbsr hkbdr

/-- Settles O54: the fetch takes input in order, and so does the execute part. -/
theorem inputIsTakenInOrder : Obligations.InputIsTakenInOrder := by
  intro s t hstep
  obtain ⟨-, hexec⟩ := step_next hstep
  obtain ⟨-, hparams, -⟩ := exec_status (fun _ => routineOf_of_decode_trap) hexec
  have hinput : InputAdvances (fetch s).2.host t.host := exec_input (fun _ => routineOf_of_decode_trap) hexec
  obtain ⟨htaken, hended⟩ := (inputAdvances_afterRead s.pc s).trans hinput
  exact ⟨htaken, hended, by simpa using hparams⟩

/-- Settles O55: a fetch elsewhere than at KBSR only advances `pc`, and the instructions named are those that may
poll or take a byte. -/
theorem keyboardActsOnlyInsideReads : Obligations.KeyboardActsOnlyInsideReads := by
  intro s t hstep hpc hld hldi hldr hsti hgetc hinp
  obtain ⟨-, hexec⟩ := step_next hstep
  have hpoll : mayPoll (fetched s) = false := by
    cases hi : fetched s with
    | ld dr off => exact absurd hi (hld dr off)
    | ldi dr off => exact absurd hi (hldi dr off)
    | ldr dr b off => exact absurd hi (hldr dr b off)
    | sti sr off => exact absurd hi (hsti sr off)
    | addr | addi | andr | andi | not | lea | jmp | ret | br | jsr | jsrr | st | str | rti | res
    | trap | getc | out | puts | inp | putsp | halt => rfl
  have hfetch : (fetch s).2 = s.setPc (s.pc + 1#16) := by rw [fetch_snd, afterRead_of_ne hpc]
  refine ⟨?_, fun a hstore => ?_⟩
  · rw [exec_host (fun _ => routineOf_of_decode_trap) hexec hpoll hgetc hinp, hfetch, State.host_setPc]
  · rw [exec_word (fun _ => routineOf_of_decode_trap) hexec hstore fun h => absurd (hpoll.symm.trans h) (by decide),
      hfetch, State.word_setPc]

/-! ## The invariant -/

/-- Settles O43: a fault recorded is the one of the fetched instruction (O48), which falls through (O50) and is no
HALT (O47); an unknown TRAP has linked (O53), and no routine has its vector. -/
theorem stepKeepsInvariant : Obligations.StepKeepsInvariant := by
  rintro s t ⟨hwf, -⟩ hstep
  obtain ⟨-, hexec⟩ := step_next hstep
  refine ⟨exec_wf (fun _ => routineOf_of_decode_trap) hexec (wf_afterRead hwf s.pc), ?_⟩
  have hrunning : fetched s ≠ .halt → t.running = true := fun hne =>
    Bool.eq_true_of_not_eq_false (mt (onlyHaltClearsRunning s t hstep).1 hne)
  have hop : (fetched s).opcode = opcodeOf (field (fetch s).1 12 4) := opcode_decode (fetch s).1
  have hpc := pcAdvancesByRule23 s t hstep
  have hfault := faultsComeOnlyFromTheirCauses s t hstep
  unfold State.faultPrecise
  cases hi : fetched s with
  | rti low =>
    rw [hi] at hrunning hop hpc hfault
    rw [hfault]
    exact decide_eq_true ⟨hrunning nofun, hpc, .inl hop.symm⟩
  | res low =>
    rw [hi] at hrunning hop hpc hfault
    rw [hfault]
    exact decide_eq_true ⟨hrunning nofun, hpc, .inr hop.symm⟩
  | trap v =>
    have hlink := linkRegisterHoldsReturnAddress s t hstep (by rw [hi]; rfl)
    obtain ⟨-, -, hparams⟩ := inputIsTakenInOrder s t hstep
    rw [hi] at hrunning hpc hfault
    rw [hfault]
    cases hpolicy : s.params.unknownTrap with
    | noop => rfl
    | fatal =>
      exact decide_eq_true ⟨hrunning nofun, hpc, hlink.trans hpc.symm, routineOf_of_decode_trap hi,
        (congrArg Config.Params.unknownTrap hparams).trans hpolicy⟩
  | addr | addi | andr | andi | not | lea | ld | ldi | ldr | jmp | ret | br | jsr | jsrr | st | sti | str
  | getc | out | puts | inp | putsp | halt => rw [hfault, hi]; rfl

end Sys2Proof.Proofs
end

section
/-! Which steps complete, what two special steps do, and the runs of a launched image (60_exceptions.md rules R185
and R197, 20_memory.md rule R65, 70_reset_and_hazards.md rules R211 to R226). -/

open Sys2Proof Sys2Proof.Machine Sys2Proof.Claims

namespace Sys2Proof.Proofs

/-! ## Completion -/

theorem inputEnded_or_byteReady (h : HostSide) : InputEnded h ∨ ∃ c h', ByteReady h c h' := by
  cases htake : takeByte h with
  | none => exact .inl (takeByte_none.1 htake)
  | some p => exact .inr ⟨p.1, p.2, takeByte_eq_some_iff.1 htake⟩

/-- After the link write, the loop of a string routine ends, or no word is zero. -/
theorem writeString_ends_or_endless (chars : Word → List Byte) (s : State) :
    (∃ t, writeString chars (link s) = .next t) ∨
      (writeString chars (link s) = .fault .stringNeverEnds ∧ ∀ a, s.word a ≠ 0x0000#16) := by
  by_cases hzero : ∃ a, s.word a = 0x0000#16
  · obtain ⟨a, ha⟩ := hzero
    exact .inl (writeString_ends chars ha)
  · exact .inr ⟨writeString_endless chars (not_exists.1 hzero), not_exists.1 hzero⟩

/-- Every instruction completes, but GETC and IN with no byte ever and the string routines with no zero word. -/
theorem exec_completes {i : Instr} (s : State) (htrap : ∀ v, i = .trap v → routineOf v = none) :
    (∃ t, exec i s = .next t) ∨
      (exec i s = .fault .blockedOnInput ∧ (i = .getc ∨ i = .inp) ∧ InputEnded s.host) ∨
      (exec i s = .fault .stringNeverEnds ∧ (i = .puts ∨ i = .putsp) ∧ ∀ a, s.word a ≠ 0x0000#16) := by
  cases i with
  | addr | addi | andr | andi | not | lea | ld | ldi | ldr | jmp | ret | br | jsr | jsrr | st | sti | str
  | out | halt | rti | res => exact .inl ⟨_, rfl⟩
  | trap v => exact .inl ⟨_, exec_trap_of_none (htrap v rfl) s⟩
  | getc =>
    obtain hended | ⟨c, h, hc⟩ := inputEnded_or_byteReady s.host
    · exact .inr (.inl ⟨(getcAndInBlockWhenInputEnded s hended).1, .inl rfl, hended⟩)
    · exact .inl ⟨_, exec_getc_of_byteReady hc⟩
  | inp =>
    obtain hended | ⟨c, h, hc⟩ := inputEnded_or_byteReady s.host
    · exact .inr (.inl ⟨(getcAndInBlockWhenInputEnded s hended).2, .inr rfl, hended⟩)
    · exact .inl ⟨_, exec_inp_of_byteReady hc⟩
  | puts => exact (writeString_ends_or_endless _ s).imp_right fun ⟨hfault, hne⟩ => .inr ⟨hfault, .inl rfl, hne⟩
  | putsp => exact (writeString_ends_or_endless _ s).imp_right fun ⟨hfault, hne⟩ => .inr ⟨hfault, .inr rfl, hne⟩

/-- Settles O45: in mid-run a step is the execute part of the fetched instruction. -/
theorem enabledStepCompletesUnlessStuck : Obligations.EnabledStepCompletesUnlessStuck := by
  intro s hmid
  rw [step_of_midRun hmid]
  exact exec_completes (fetch s).2 fun _ => routineOf_of_decode_trap

/-! ## Self-modifying code -/

/-- A fetch elsewhere than at KBSR reads the word plainly. -/
theorem fetch_of_ne {s : State} (h : s.pc ≠ kbsrAddr) : fetch s = (s.word s.pc, s.setPc (s.pc + 1#16)) := by
  unfold fetch memRead
  rw [afterRead_of_ne h]

/-- Settles O56: the store goes to the next `pc`, the run goes on, and the fetch there reads the word stored. -/
theorem storedWordIsExecutedNext : Obligations.StoredWordIsExecutedNext := by
  intro s t sr hst hnext hstep
  obtain ⟨⟨hrunning, hnone⟩, hexec⟩ := step_next hstep
  rw [show decode (fetch s).1 = .st sr 0#9 from hst, exec_st] at hexec
  obtain rfl : memWrite (s.pc + 1#16) (s.reg sr) (fetch s).2 = t := by
    cases hexec
    simp [pcRel9, sext]
  have hmid : (memWrite (s.pc + 1#16) (s.reg sr) (fetch s).2).midRun := ⟨by simpa using hrunning, by simpa using hnone⟩
  rw [step_of_midRun hmid, fetch_of_ne hnext]
  simp [BitVec.add_assoc]

/-! ## A fetch at KBSR -/

theorem fetch_at_kbsr {s : State} (h : s.pc = kbsrAddr) :
    fetch s = ((afterRead kbsrAddr s).word kbsrAddr, (afterRead kbsrAddr s).setPc 0xFE01#16) := by
  unfold fetch
  rw [h]
  rfl

/-- The two words a poll leaves at KBSR: RTI's, and a branch that no flag takes. -/
theorem decode_kbsr_words : decode 0x8000#16 = .rti 0#12 ∧ decode 0x0000#16 = .br 0#3 0#9 := by decide

/-- A branch whose mask is 0 changes nothing. -/
theorem exec_br_zero (off : BitVec 9) (s : State) : exec (.br 0#3 off) s = .next s := by
  have hnot : condMet 0#3 s.cond = false := by cases s.cond <;> rfl
  rw [exec_br, hnot]
  rfl

/-- Settles O57: the word fetched is the status just polled, which is RTI's with a key and a branch never taken
without one. -/
theorem fetchAtKeyboardStatus : Obligations.FetchAtKeyboardStatus := by
  intro s hmid hpc
  obtain ⟨hrti, hbr⟩ := decode_kbsr_words
  have hpoll := pollEffect_kbsrPoll s
  obtain ⟨-, -, hword⟩ := pollEffect_kbsrPoll s
  obtain ⟨hregs, -, hcond, hout, hrunning, hfault, hparams⟩ := afterRead_same kbsrAddr s
  rw [step_of_midRun hmid, fetch_at_kbsr hpc, afterRead_kbsr]
  rw [afterRead_kbsr] at hregs hcond hout hrunning hfault hparams
  cases hkey : (pollKey s.host).1 with
  | none =>
    rw [hkey] at hword
    refine ⟨(kbsrPoll s).setPc 0xFE01#16, ?_, hpoll, rfl, fun _ => hfault.trans hmid.2, nofun, hregs, hcond, hout,
      hrunning.trans hmid.1, hparams⟩
    rw [show (kbsrPoll s).word kbsrAddr = 0x0000#16 from hword.1, hbr, exec_br_zero]
  | some k =>
    rw [hkey] at hword
    have haddress : FaultStatus.badOpcode 0x8000#16 (0xFE01#16 - 1#16) = .badOpcode 0x8000#16 0xFE00#16 := by decide
    refine ⟨raiseBadOpcode 0x8000#16 ((kbsrPoll s).setPc 0xFE01#16), ?_, hpoll, rfl, nofun, fun _ _ => haddress,
      hregs, hcond, hout, hrunning.trans hmid.1, hparams⟩
    rw [show (kbsrPoll s).word kbsrAddr = 0x8000#16 from hword.1, hrti, exec_rti]
    rfl

/-! ## Runs -/

/-- What every step of a machine keeps holds of every state a run reaches. -/
theorem run_induction (M : Host.Core) (P : M.State → Prop) (hstep : ∀ s t, P s → M.step s = .next t → P t)
    {k : Nat} {s t : M.State} (hs : P s) (hrun : M.run k s = .next t) : P t := by
  induction k generalizing s with
  | zero =>
    cases hrun
    exact hs
  | succ k ih =>
    unfold Host.Core.run at hrun
    split at hrun
    · rename_i u hu
      exact ih (hstep s u hs hu) hrun
    · cases hrun
    · cases hrun

/-- Storing words changes only memory. -/
theorem storeWords_frame (a : Word) (ws : List Word) (s : State) :
    ∃ m, storeWords a ws s = { s with mem := m } := by
  induction ws generalizing a s with
  | nil => exact ⟨s.mem, rfl⟩
  | cons w ws ih =>
    obtain ⟨m, hm⟩ := ih (a + 1#16) (memWrite a w s)
    exact ⟨m, hm⟩

/-- A launch gives a state that meets the invariant: only memory is written after reset, by plain stores. -/
theorem inv_launch {p : Config.Params} {h : HostSide} {bytes : List Byte} {s : State}
    (hlaunch : launch p h bytes = .ok s) : s.Inv := by
  unfold launch loadImage at hlaunch
  cases himage : parseImage bytes with
  | error e =>
    rw [himage] at hlaunch
    cases hlaunch
  | ok image =>
    rw [himage] at hlaunch
    cases hlaunch
    obtain ⟨hwf, -⟩ := inv_resetWith p h
    refine ⟨wf_storeWords hwf image.origin image.body, ?_⟩
    obtain ⟨m, hm⟩ := storeWords_frame image.origin image.body (State.resetWith p h)
    rw [hm]
    rfl

/-- Settles O44: the launch meets the invariant and every step keeps it (O43). -/
theorem everyLaunchedRunKeepsInvariant : Obligations.EveryLaunchedRunKeepsInvariant :=
  fun _ _ _ _ _ _ hlaunch hrun =>
    run_induction Sys2Proof.core State.Inv stepKeepsInvariant (inv_launch hlaunch) hrun

end Sys2Proof.Proofs
end

section
/-! Images: what a byte stream holds, where its words go in memory, and the launch state
(70_reset_and_hazards.md rules R211 to R217). -/

open Sys2Proof Sys2Proof.Machine Sys2Proof.Claims

namespace Sys2Proof.Proofs

/-! ## The byte stream -/

/-- A word is its high byte followed by its low byte (R212). -/
theorem wordOfBytes_parts (w : Word) : wordOfBytes (highPart w) (lowPart w) = w := by
  rw [← highByte_eq_highPart, ← lowByte_eq_lowPart]
  apply BitVec.eq_of_getLsbD_eq
  intro k hk
  unfold wordOfBytes highByte lowByte
  rw [BitVec.getLsbD_append]
  by_cases hlow : k < 8
  · simp [hlow]
  · simp [hlow, show k - 8 < 8 by omega, show 8 + (k - 8) = k by omega]

/-- The words of a stream of words are those words. -/
theorem wordsOfBytes_flatMap (ws : List Word) :
    wordsOfBytes (ws.flatMap fun w => [highPart w, lowPart w]) = some ws := by
  induction ws with
  | nil => rfl
  | cons w ws ih =>
    rw [List.flatMap_cons, List.cons_append, List.cons_append, List.nil_append, wordsOfBytes, ih, Option.map_some,
      wordOfBytes_parts]

/-- A stream leaves a byte over exactly when its length is odd. -/
theorem wordsOfBytes_eq_none {bytes : List Byte} (h : bytes.length % 2 = 1) : wordsOfBytes bytes = none := by
  induction bytes using wordsOfBytes.induct with
  | case1 => cases h
  | case2 => rfl
  | case3 hi lo rest ih =>
    rw [List.length_cons, List.length_cons] at h
    rw [wordsOfBytes, ih (by omega), Option.map_none]

/-- The stream of an origin and words is that image when it fits, and an overflow when it does not (R212, R214). -/
theorem parseImage_imageBytes (o : Word) (ws : List Word) :
    parseImage (imageBytes o ws) =
      if o.toNat + ws.length ≤ 65536 then .ok ⟨o, ws⟩ else .error .overflow := by
  unfold parseImage imageBytes
  rw [List.flatMap_cons, List.cons_append, List.cons_append, List.nil_append]
  dsimp only
  rw [wordsOfBytes_flatMap, wordOfBytes_parts]
  rfl

/-! ## The words in memory -/

/-- The addresses of a list of words that starts one further on. -/
theorem add_one_add_ofNat (a : Word) (n : Nat) : a + 1#16 + BitVec.ofNat 16 n = a + BitVec.ofNat 16 (n + 1) := by
  rw [BitVec.add_assoc, Nat.add_comm n 1, BitVec.ofNat_add]

/-- A word at no address of the list stored is as before. -/
theorem word_storeWords_of_ne {a b : Word} {ws : List Word} {s : State}
    (h : ∀ n < ws.length, b ≠ a + BitVec.ofNat 16 n) : (storeWords a ws s).word b = s.word b := by
  induction ws generalizing a s with
  | nil => rfl
  | cons w ws ih =>
    have hhead : b ≠ a := by simpa using h 0 (Nat.zero_lt_succ _)
    have htail : ∀ n < ws.length, b ≠ a + 1#16 + BitVec.ofNat 16 n := fun n hn => by
      rw [add_one_add_ofNat]
      exact h (n + 1) (Nat.succ_lt_succ hn)
    exact (ih htail).trans ((word_memWrite a w s b).trans (if_neg hhead))

/-- The words stored stand in order from the first address on, as long as they do not come round to it. -/
theorem word_storeWords {a : Word} {ws : List Word} {s : State} (hfit : ws.length ≤ 65536) {n : Nat}
    (hn : n < ws.length) : (storeWords a ws s).word (a + BitVec.ofNat 16 n) = ws[n] := by
  induction ws generalizing a s n with
  | nil => cases hn
  | cons w ws ih =>
    rw [List.length_cons] at hfit
    cases n with
    | zero =>
      have hne : ∀ m < ws.length, a + BitVec.ofNat 16 0 ≠ a + 1#16 + BitVec.ofNat 16 m := fun m hm => by
        rw [add_one_add_ofNat, Ne, BitVec.add_right_inj, ← BitVec.toNat_inj, BitVec.toNat_ofNat, BitVec.toNat_ofNat]
        omega
      rw [storeWords, word_storeWords_of_ne hne, BitVec.add_zero, word_memWrite_self, List.getElem_cons_zero]
    | succ n =>
      rw [← add_one_add_ofNat]
      exact ih (by omega) (Nat.lt_of_succ_lt_succ hn)

/-- Storing words leaves everything but memory. -/
theorem storeWords_same (a : Word) (ws : List Word) (s : State) :
    SameRegs [] s (storeWords a ws s) ∧ SamePc s (storeWords a ws s) ∧ SameCond s (storeWords a ws s) ∧
      SameConsole s (storeWords a ws s) ∧ SameStatus s (storeWords a ws s) := by
  obtain ⟨m, hm⟩ := storeWords_frame a ws s
  rw [hm]
  exact ⟨fun _ _ => rfl, rfl, rfl, ⟨rfl, rfl⟩, rfl, rfl, rfl⟩

theorem loadImage_imageBytes {o : Word} {ws : List Word} (hfit : o.toNat + ws.length ≤ 65536) (s : State) :
    loadImage (imageBytes o ws) s = .ok (storeWords o ws s) := by
  unfold loadImage
  rw [parseImage_imageBytes, if_pos hfit]

/-- Settles O58: the image that fits is loaded, by plain stores. -/
theorem imageLoadsVerbatimAtOrigin : Obligations.ImageLoadsVerbatimAtOrigin := by
  intro s o ws hfit
  exact ⟨_, loadImage_imageBytes hfit s, fun n hn => word_storeWords (by omega) hn,
    fun a ha => word_storeWords_of_ne ha, storeWords_same o ws s⟩

/-- Settles O59: each error is decided by the length of the stream, the third with the origin it begins with. -/
theorem imageErrorsAreTheThreeOfRule214 : Obligations.ImageErrorsAreTheThreeOfRule214 := by
  intro s bytes
  unfold loadImage
  refine ⟨fun hshort => ?_, fun hlong hodd => ?_, ?_⟩
  · match bytes, hshort with
    | [], _ => rfl
    | [_], _ => rfl
  · match bytes, hlong, hodd with
    | hi :: lo :: rest, _, hodd =>
      rw [List.length_cons, List.length_cons] at hodd
      rw [parseImage, wordsOfBytes_eq_none (by omega)]
  · rintro o ws rfl hover
    rw [parseImage_imageBytes, if_neg (by omega)]

/-- Settles O60: the launch is the load of O58 on the reset state of O1, running. -/
theorem launchStateIsResetPlusImage : Obligations.LaunchStateIsResetPlusImage := by
  intro p h o ws hfit
  obtain ⟨t, hload, hwords, hothers, hregs, hpc, hcond, ⟨hout, hhost⟩, -, hfault, hparams⟩ :=
    imageLoadsVerbatimAtOrigin (State.resetWith p h) o ws hfit
  refine ⟨startRun t, ?_, ⟨rfl, hfault⟩, hpc, hcond, hout, hhost, hparams, fun r => ?_, hwords, hothers⟩
  · unfold launch
    rw [hload]
  · exact (hregs r List.not_mem_nil).trans (reg_resetWith p h r)

end Sys2Proof.Proofs
end
